-- ==== Sys2Proof/Word.lean ====
section
/-! DEFINITION. The two word types of the machine (spec/00_scope.md R3): a byte is 8 bits, an address or register pair 16 bits. -/

namespace Sys2Proof

/-- A byte: the content of a general register, of a memory cell, of an instruction byte (R3). -/
abbrev Byte := BitVec 8

/-- A 16-bit value: a register pair, the Stack Pointer, the Program Counter, an address (R3). -/
abbrev Word := BitVec 16

end Sys2Proof
end

