-- ==== Sys2Proof/Machine/Bits.lean ====
section
/-! DEFINITION. The two halves of a 16-bit value (spec/00_scope.md R5, R6, R7; spec/20_memory.md R52). -/

namespace Sys2Proof.Machine

/-- `hi ++ lo`: `hi` is the most significant byte (R5). -/
def join (hi lo : Byte) : Word := hi ++ lo

/-- `v[15:8]`, the most significant byte. -/
def hiByte (v : Word) : Byte := v.extractLsb' 8 8

/-- `v[7:0]`, the least significant byte. -/
def loByte (v : Word) : Byte := v.extractLsb' 0 8

end Sys2Proof.Machine
end

