-- ==== Sys2Proof/Config.lean ====
section
/-! DEFINITION. The parameters of spec/00_scope.md R3, which the source leaves open, and the one free value.
The record is plain data and travels in State (log entry 1); no instruction writes it. -/

namespace Sys2Proof

/-- A stretch of present memory: `size` addresses from `base` on, all writable or all read-only (R56, log entry 34). -/
structure Region where
  base     : Nat
  size     : Nat
  writable : Bool
deriving DecidableEq, Repr

/-- `RP11_ARITH` (R3, R23, D6): what register pair code 11 means in DAD, INX and DCX. -/
inductive Rp11Arith where
  | sp
  | refuse
deriving DecidableEq, Repr

/-- `LOGIC_AC` (R3, R144, D10): what the six logical instructions do to the Auxiliary Carry Bit. -/
inductive LogicAc where
  | unaffected
  | chip
deriving DecidableEq, Repr

/-- `AUX_SUB` (R3, R10, D9): left uninterpreted, or the recommended formula, the carry out of bit 3. -/
inductive AuxSub where
  | uninterpreted
  | carryOutOfBit3
deriving DecidableEq, Repr

/-- The parameters of R3. `endPc` is none where a claim names no `END_PC` (log entry 4). -/
structure Config where
  memMap       : List Region
  startPc      : Word
  endPc        : Option Word
  pswFlagsHigh : Bool
  rp11Arith    : Rp11Arith
  lxiSpSwapped : Bool
  auxSub       : AuxSub
  logicAc      : LogicAc
deriving DecidableEq, Repr

/-- FREE VALUE. `AUX_SUB` left uninterpreted (R10, R226): a function of the accumulator, the operand and the incoming
borrow of which nothing else is known (log entry 14). -/
opaque Config.openAuxSub : Byte → Byte → Bool → Bool

/-- The parameters of the machine right after reset: the spec's default where R3 gives one; for the open ones all of
memory present and writable (DESIGN CHOICE, log entry 2), START_PC 0 (PRESUMED, the family's, log entry 5), no END_PC
(DESIGN CHOICE, log entry 4), AUX_SUB uninterpreted (log entry 14). -/
def Config.standard : Config where
  memMap       := [{ base := 0, size := 65536, writable := true }]
  startPc      := 0x0000#16
  endPc        := none
  pswFlagsHigh := true
  rp11Arith    := .sp
  lxiSpSwapped := false
  auxSub       := .uninterpreted
  logicAc      := .unaffected

end Sys2Proof
end

