-- ==== Sys2Proof/Machine/State.lean ====
section
/-! DEFINITION. The state of the machine (spec/10_state.md R34), the reasons a step can stop, and the state after reset. -/

namespace Sys2Proof.Machine

/-- The seven 8-bit general registers (R20). The pairs BC, DE, HL are views of them (R22). -/
structure Regs where
  a : Byte
  b : Byte
  c : Byte
  d : Byte
  e : Byte
  h : Byte
  l : Byte
deriving DecidableEq, Repr

/-- The five 1-bit status bits (R26): Carry, Auxiliary Carry, Sign, Zero, Parity. -/
structure Flags where
  cy : Bool
  ac : Bool
  s  : Bool
  z  : Bool
  p  : Bool
deriving DecidableEq, Repr

/-- Memory (R32): the listed cells, and every other address reads as `Memory.unlisted`. -/
structure Memory where
  cells : List Host.Cell
deriving DecidableEq, Repr

/-- What an unlisted address reads as. DESIGN CHOICE (the spec gives memory no reset contents, R35): 0x00, log entry 7. -/
def Memory.unlisted : Byte := 0x00#8

/-- The complete architectural state of R34, and `cfg`, the parameters of the step (R3), which no instruction writes. -/
structure State where
  regs  : Regs
  flags : Flags
  sp    : Word
  pc    : Word
  mem   : Memory
  cfg   : Config
deriving DecidableEq, Repr

/-- Why a step has no next state though no instruction is refused. None of them is an exception of the machine: the set
of exceptions is empty (R200). -/
inductive Fault where
  /-- Raised by instruction fetch: a byte of the instruction lies outside `MEM_MAP` (R56, stuck). Safe: the model says
  nothing where the hardware does something. -/
  | stuckFetch (addr : Word)
  /-- Raised by a data read outside `MEM_MAP` (R56, stuck). Safe, as above. -/
  | stuckRead (addr : Word)
  /-- Raised by a write to an address that is absent or not writable (R56, stuck). Safe, as above. -/
  | stuckWrite (addr : Word)
  /-- Raised by a step at `pc == END_PC`: the run is over and the state is final (R224). Safe: the processor itself goes
  on, the model says nothing of it. -/
  | runOver
deriving DecidableEq, Repr

/-- Why an instruction has no meaning. -/
inductive Refusal where
  /-- Raised by `exec` alone, for an instruction that has no meaning yet. Safe. No arm answers it in this model. -/
  | notModelled (mnemonic : String)
  /-- Raised by fetch, and by MOV M,M given as a term: the first byte is one of the 69 values to which the spec gives no
  meaning (R82, R83). Safe. -/
  | unspecifiedByte (b1 : Byte)
  /-- Raised by DAD SP, INX SP and DCX SP under `RP11_ARITH = refuse` (R12, R226). Safe. -/
  | rp11Refused (b1 : Byte)
deriving DecidableEq, Repr

/-- The machine right after reset: `pc` is START_PC (R35); every register and status bit is zero (DESIGN CHOICE, the spec
gives none, log entry 6); memory lists nothing (log entry 7); the parameters are `Config.standard`. -/
def State.reset : State where
  regs  := { a := 0#8, b := 0#8, c := 0#8, d := 0#8, e := 0#8, h := 0#8, l := 0#8 }
  flags := { cy := false, ac := false, s := false, z := false, p := false }
  sp    := 0x0000#16
  pc    := Config.standard.startPc
  mem   := { cells := [] }
  cfg   := Config.standard

end Sys2Proof.Machine
end

