-- ==== Sys2Proof/Machine/Ops.lean ====
section
/-! DEFINITION. The shared operations: updates of one field of the state, memory and `MEM_MAP`, the primitives MemRead and
MemWrite (spec/00_scope.md R7), moving the Program Counter past an instruction (R11). There is no operation that takes an
exception and none that returns from one: the spec's set of exceptions is empty (spec/60_exceptions.md R200, R205, R206). -/

namespace Sys2Proof.Machine

/-! ### Outcomes -/

/-- What an operation of the machine answers: a value, a fault or a refusal (R12). -/
abbrev Result (α : Type) := Host.Outcome α Fault Refusal

/-- Go on with the value; a fault or a refusal ends the instruction with no partial effect (R204). -/
def bindR {α β : Type} (o : Result α) (f : α → Result β) : Result β :=
  match o with
  | .next x => f x
  | .fault r => .fault r
  | .refused r => .refused r

/-! ### Updates of one field -/

def State.withRegs (s : State) (r : Regs) : State := { s with regs := r }

/-- Write the accumulator. -/
def State.withA (s : State) (v : Byte) : State := { s with regs := { s.regs with a := v } }

def State.withFlags (s : State) (f : Flags) : State := { s with flags := f }

/-- Write the Carry Bit alone. -/
def State.withCy (s : State) (c : Bool) : State := { s with flags := { s.flags with cy := c } }

def State.withSp (s : State) (v : Word) : State := { s with sp := v }

def State.withPc (s : State) (v : Word) : State := { s with pc := v }

def State.withMem (s : State) (m : Memory) : State := { s with mem := m }

/-- `pc <- pc + len` modulo 2^16, the last line of every instruction that does not branch (R11, R25, R55). -/
def State.advance (s : State) (len : Nat) : State := s.withPc (s.pc + BitVec.ofNat 16 len)

/-! ### Memory -/

/-- The byte the cells hold for an address. -/
def lookupCell : List Host.Cell → Nat → Byte
  | [], _ => Memory.unlisted
  | (k, v) :: rest, a => if k = a then v else lookupCell rest a

/-- The cells without any entry for an address. -/
def eraseCell : List Host.Cell → Nat → List Host.Cell
  | [], _ => []
  | (k, v) :: rest, a => if k = a then eraseCell rest a else (k, v) :: eraseCell rest a

/-- The cells with an entry put in before the first higher address. -/
def insertCell : List Host.Cell → Nat → Byte → List Host.Cell
  | [], a, v => [(a, v)]
  | (k, w) :: rest, a, v => if a < k then (a, v) :: (k, w) :: rest else (k, w) :: insertCell rest a v

/-- The byte at an address (R64: the byte last written there, or the launch value). -/
def Memory.read (m : Memory) (a : Word) : Byte := lookupCell m.cells a.toNat

/-- Replace the byte at an address and nothing else (R64), keeping the canonical form. -/
def Memory.write (m : Memory) (a : Word) (v : Byte) : Memory :=
  if v = Memory.unlisted then { cells := eraseCell m.cells a.toNat }
  else { cells := insertCell (eraseCell m.cells a.toNat) a.toNat v }

/-- The canonical form: addresses strictly rising and below 2^16, and no entry equal to what an unlisted address reads as. -/
abbrev Memory.wf (m : Memory) : Prop :=
  m.cells.Pairwise (fun x y => x.1 < y.1) ∧ ∀ c ∈ m.cells, c.1 < 65536 ∧ c.2 ≠ Memory.unlisted

/-! ### MEM_MAP and the memory primitives -/

/-- Is the address in the region? -/
def regionCovers (r : Region) (a : Word) : Bool := decide (r.base ≤ a.toNat) && decide (a.toNat < r.base + r.size)

/-- Is the address in `MEM_MAP` (R56)? -/
def memPresent (c : Config) (a : Word) : Bool := c.memMap.any fun r => regionCovers r a

/-- Does `MEM_MAP` mark the address writable (R56)? A writable address is present. -/
def memWritable (c : Config) (a : Word) : Bool := c.memMap.any fun r => regionCovers r a && r.writable

/-- `MemRead(addr, 1)`: stuck outside `MEM_MAP` (R7, R56). -/
def readByte (s : State) (a : Word) : Result Byte :=
  if memPresent s.cfg a then .next (s.mem.read a) else .fault (.stuckRead a)

/-- `MemWrite(addr, 1, v)`: stuck where memory is absent or not writable (R7, R56). -/
def writeByte (s : State) (a : Word) (v : Byte) : Result State :=
  if memWritable s.cfg a then .next (s.withMem (s.mem.write a v)) else .fault (.stuckWrite a)

/-- Two one-byte reads, at `a` then at `a + 1`, answered as `hi ++ lo` (R7 with n = 2, R52, R54). -/
def readTwo (s : State) (a : Word) : Result Word :=
  bindR (readByte s a) fun lo =>
  bindR (readByte s (a + 1#16)) fun hi => .next (join hi lo)

/-- Two one-byte writes, the low half at `a` then the high half at `a + 1` (R7 with n = 2, R52, R54). -/
def writeTwo (s : State) (a : Word) (v : Word) : Result State :=
  bindR (writeByte s a (loByte v)) fun s1 => writeByte s1 (a + 1#16) (hiByte v)

/-- Push `hi` at `sp-1`, then `lo` at `sp-2`, and take two from `sp` (R24, R54, R100, R101). -/
def pushTwo (s : State) (hi lo : Byte) : Result State :=
  bindR (writeByte s (s.sp - 1#16) hi) fun s1 =>
  bindR (writeByte s1 (s.sp - 2#16) lo) fun s2 => .next (s2.withSp (s.sp - 2#16))

end Sys2Proof.Machine
end

