-- ==== Sys2Proof/Machine/Flags.lean ====
section
/-! DEFINITION. Arithmetic and the status bits: `parity8`, `szp`, `add8`, `sub8` (spec/00_scope.md R8, R9, R10), the Status
Bit Register as a byte (spec/10_state.md R27), and the shared tails of the accumulator instructions (R148, R180). -/

namespace Sys2Proof.Machine

/-- `parity8(v)`: 1 for an even number of 1 bits (R8; DEDUCED by the spec from three examples, log entry 32). -/
def parity8 (v : Byte) : Bool :=
  !(v.getLsbD 7 ^^ v.getLsbD 6 ^^ v.getLsbD 5 ^^ v.getLsbD 4 ^^ v.getLsbD 3 ^^ v.getLsbD 2 ^^ v.getLsbD 1 ^^ v.getLsbD 0)

/-- What an 8-bit addition or subtraction answers: the result, the Carry Bit, the Auxiliary Carry Bit. -/
structure AluResult where
  res : Byte
  cy  : Bool
  ac  : Bool
deriving DecidableEq, Repr

/-- A 1-bit value as a bit vector of width `n`. -/
def bitOf (n : Nat) (c : Bool) : BitVec n := (BitVec.ofBool c).setWidth n

/-- The low nibble `v[3:0]` extended to 5 bits. -/
def nibble5 (v : Byte) : BitVec 5 := (v.extractLsb' 0 4).setWidth 5

/-- `add8(a, b, c)` (R9). The Auxiliary Carry Bit is PRESUMED (general knowledge G3, log entry 13). -/
def add8 (a b : Byte) (c : Bool) : AluResult :=
  let s9 : BitVec 9 := a.setWidth 9 + b.setWidth 9 + bitOf 9 c
  { res := s9.extractLsb' 0 8
    cy  := s9.getLsbD 8
    ac  := (nibble5 a + nibble5 b + bitOf 5 c).getLsbD 4 }

/-- `AUX_SUB(a, b, c)` (R10): the free value, or the recommended default, the uncomplemented carry out of bit 3 of
`a + ~b + (1 - c)` (D9, G6, log entry 14). -/
def auxSub (k : AuxSub) (a b : Byte) (c : Bool) : Bool :=
  match k with
  | .uninterpreted => Config.openAuxSub a b c
  | .carryOutOfBit3 => (nibble5 a + nibble5 (~~~b) + bitOf 5 (!c)).getLsbD 4

/-- `sub8(a, b, c)` (R10): the Carry Bit is the complement of the adder's carry. -/
def sub8 (k : AuxSub) (a b : Byte) (c : Bool) : AluResult :=
  let t9 : BitVec 9 := a.setWidth 9 + (~~~b).setWidth 9 + bitOf 9 (!c)
  { res := t9.extractLsb' 0 8
    cy  := !t9.getLsbD 8
    ac  := auxSub k a b c }

/-- `szp(v)`: Sign, Zero and Parity from an 8-bit result (R8, R29; Sign is PRESUMED, log entry 13). -/
def Flags.szp (f : Flags) (v : Byte) : Flags :=
  { f with s := v.getLsbD 7, z := decide (v = 0x00#8), p := parity8 v }

/-- All five status bits after an addition, subtraction or comparison (R31). -/
def Flags.ofAlu (f : Flags) (r : AluResult) : Flags :=
  Flags.szp { f with cy := r.cy, ac := r.ac } r.res

/-- The Auxiliary Carry Bit after ANA or ANI (R144, `LOGIC_AC`, log entry 18). -/
def andAc (k : LogicAc) (old : Bool) (a v : Byte) : Bool :=
  match k with
  | .unaffected => old
  | .chip => a.getLsbD 3 || v.getLsbD 3

/-- The Auxiliary Carry Bit after XRA, ORA, XRI or ORI (R144, `LOGIC_AC`, log entry 18). -/
def orAc (k : LogicAc) (old : Bool) : Bool :=
  match k with
  | .unaffected => old
  | .chip => false

/-- The five status bits after a logical instruction: Carry 0, Sign, Zero, Parity from the result (R30, R31). -/
def Flags.ofLogic (f : Flags) (ac : Bool) (res : Byte) : Flags :=
  Flags.szp { f with cy := false, ac := ac } res

/-- `FlagsByte()` = S ++ Z ++ 0 ++ AC ++ 0 ++ P ++ 1 ++ CY (R27). -/
def flagsByte (f : Flags) : Byte :=
  BitVec.ofBool f.s ++ BitVec.ofBool f.z ++ 0b0#1 ++ BitVec.ofBool f.ac ++ 0b0#1 ++ BitVec.ofBool f.p ++ 0b1#1
    ++ BitVec.ofBool f.cy

/-- `SetFlags(v)`: bits 5, 3 and 1 are dropped (R27, D8, log entry 26). -/
def setFlags (v : Byte) : Flags :=
  { cy := v.getLsbD 0, ac := v.getLsbD 4, s := v.getLsbD 7, z := v.getLsbD 6, p := v.getLsbD 2 }

/-! ### The shared tails of the accumulator instructions, with `len` the instruction's length (R148, R180) -/

/-- `A <- A + v + c` with all five status bits. -/
def addToA (s : State) (v : Byte) (c : Bool) (len : Nat) : State :=
  let r := add8 s.regs.a v c
  ((s.withA r.res).withFlags (s.flags.ofAlu r)).advance len

/-- `A <- A - v - c` with all five status bits. -/
def subFromA (s : State) (v : Byte) (c : Bool) (len : Nat) : State :=
  let r := sub8 s.cfg.auxSub s.regs.a v c
  ((s.withA r.res).withFlags (s.flags.ofAlu r)).advance len

/-- `A - v` for the five status bits only; A is not written (R147, R179). -/
def compareA (s : State) (v : Byte) (len : Nat) : State :=
  (s.withFlags (s.flags.ofAlu (sub8 s.cfg.auxSub s.regs.a v false))).advance len

/-- `A <- A & v` (R144, R176). -/
def andA (s : State) (v : Byte) (len : Nat) : State :=
  let res := s.regs.a &&& v
  ((s.withA res).withFlags (s.flags.ofLogic (andAc s.cfg.logicAc s.flags.ac s.regs.a v) res)).advance len

/-- `A <- A ^ v` (R145, R177). -/
def xorA (s : State) (v : Byte) (len : Nat) : State :=
  let res := s.regs.a ^^^ v
  ((s.withA res).withFlags (s.flags.ofLogic (orAc s.cfg.logicAc s.flags.ac) res)).advance len

/-- `A <- A | v` (R146, R178). -/
def orA (s : State) (v : Byte) (len : Nat) : State :=
  let res := s.regs.a ||| v
  ((s.withA res).withFlags (s.flags.ofLogic (orAc s.cfg.logicAc s.flags.ac) res)).advance len

end Sys2Proof.Machine
end

