-- ==== Sys2Proof/Syntax.lean ====
section
/-! DEFINITION. The instructions: one constructor per row of spec/opcode_table.json, 48 rows for 42 instructions. -/

namespace Sys2Proof

/-- The operand a 3-bit register code selects (spec/10_state.md R21): seven registers, and `m`, the memory reference M. -/
inductive Reg8 where
  | b | c | d | e | h | l | m | a
deriving DecidableEq, Repr

/-- The register pairs that codes 00, 01, 10 select (R22, R23). Code 11 has constructors of its own in `Instr`. -/
inductive Pair where
  | bc | de | hl
deriving DecidableEq, Repr

/-- The address pair of STAX and LDAX, selected by the one-bit field X (spec/30_encoding.md R75). -/
inductive XPair where
  | bc | de
deriving DecidableEq, Repr

/-- The instructions of spec/opcode_table.json. A `Word` operand is `b3 ++ b2` (R11), a `Byte` operand is `b2`. -/
inductive Instr where
  -- register pair instructions (R100 to R109)
  | push (rp : Pair)
  | pushPsw
  | pop (rp : Pair)
  | popPsw
  | dad (rp : Pair)
  | dadSp
  | inx (rp : Pair)
  | inxSp
  | dcx (rp : Pair)
  | dcxSp
  | xchg
  | xthl
  | sphl
  -- rotate accumulator instructions (R120 to R123)
  | rlc
  | rrc
  | ral
  | rar
  -- data transfer instructions (R130 to R132)
  | mov (dst src : Reg8)
  | stax (x : XPair)
  | ldax (x : XPair)
  -- register/memory to accumulator transfers (R140 to R147)
  | add (src : Reg8)
  | adc (src : Reg8)
  | sub (src : Reg8)
  | sbb (src : Reg8)
  | ana (src : Reg8)
  | xra (src : Reg8)
  | ora (src : Reg8)
  | cmp (src : Reg8)
  -- direct addressing instructions (R160 to R163)
  | sta (addr : Word)
  | lda (addr : Word)
  | shld (addr : Word)
  | lhld (addr : Word)
  -- immediate instructions (R170 to R179)
  | lxi (rp : Pair) (data : Word)
  | lxiSp (data : Word)
  | mvi (dst : Reg8) (data : Byte)
  | adi (data : Byte)
  | aci (data : Byte)
  | sui (data : Byte)
  | sbi (data : Byte)
  | ani (data : Byte)
  | xri (data : Byte)
  | ori (data : Byte)
  | cpi (data : Byte)
  -- branching instructions (R191 to R195)
  | pchl
  | jmp (addr : Word)
  | jc (addr : Word)
  | jnc (addr : Word)
  | jz (addr : Word)
deriving DecidableEq, Repr

end Sys2Proof
end

