-- ==== Sys2Proof/Machine/Operands.lean ====
section
/-! DEFINITION. Operand forms: register codes, register pairs, the address pair of STAX and LDAX (spec/00_scope.md R6,
spec/10_state.md R21, R22, R23). -/

namespace Sys2Proof.Machine

/-- BC, DE or HL: the first register is the most significant half (R22). -/
def pairValue (s : State) : Pair → Word
  | .bc => join s.regs.b s.regs.c
  | .de => join s.regs.d s.regs.e
  | .hl => join s.regs.h s.regs.l

/-- `RP(rp) <- v`: the first register takes `v[15:8]`, the second `v[7:0]` (R6, R22). -/
def State.withPair (s : State) (rp : Pair) (v : Word) : State :=
  match rp with
  | .bc => s.withRegs { s.regs with b := hiByte v, c := loByte v }
  | .de => s.withRegs { s.regs with d := hiByte v, e := loByte v }
  | .hl => s.withRegs { s.regs with h := hiByte v, l := loByte v }

/-- The address STAX and LDAX use (R131, R132). -/
def xValue (s : State) : XPair → Word
  | .bc => pairValue s .bc
  | .de => pairValue s .de

/-- `R8(i)`: a register, or for M the memory byte at `H ++ L` (R6, R21; M is PRESUMED, log entry 12). -/
def readOperand (s : State) : Reg8 → Result Byte
  | .b => .next s.regs.b
  | .c => .next s.regs.c
  | .d => .next s.regs.d
  | .e => .next s.regs.e
  | .h => .next s.regs.h
  | .l => .next s.regs.l
  | .m => readByte s (pairValue s .hl)
  | .a => .next s.regs.a

/-- `W8(i, v)`: write a register, or for M the memory byte at `H ++ L` (R6, R21; log entry 12). -/
def writeOperand (s : State) (r : Reg8) (v : Byte) : Result State :=
  match r with
  | .b => .next (s.withRegs { s.regs with b := v })
  | .c => .next (s.withRegs { s.regs with c := v })
  | .d => .next (s.withRegs { s.regs with d := v })
  | .e => .next (s.withRegs { s.regs with e := v })
  | .h => .next (s.withRegs { s.regs with h := v })
  | .l => .next (s.withRegs { s.regs with l := v })
  | .m => writeByte s (pairValue s .hl) v
  | .a => .next (s.withRegs { s.regs with a := v })

end Sys2Proof.Machine
end

