-- ==== Sys2Proof/Machine/AccumulatorAlu.lean ====
section
/-! DEFINITION. Register/memory to accumulator transfers (spec/43_accumulator_alu.md R140 to R148). -/

namespace Sys2Proof.Machine

/-- ADD (R140). -/
def execAdd (src : Reg8) (s : State) : Result State :=
  bindR (readOperand s src) fun v => .next (addToA s v false 1)

/-- ADC (R141). -/
def execAdc (src : Reg8) (s : State) : Result State :=
  bindR (readOperand s src) fun v => .next (addToA s v s.flags.cy 1)

/-- SUB (R142). -/
def execSub (src : Reg8) (s : State) : Result State :=
  bindR (readOperand s src) fun v => .next (subFromA s v false 1)

/-- SBB (R143): `v + CY` is not cut to 8 bits (D12, log entry 25). -/
def execSbb (src : Reg8) (s : State) : Result State :=
  bindR (readOperand s src) fun v => .next (subFromA s v s.flags.cy 1)

/-- ANA (R144). -/
def execAna (src : Reg8) (s : State) : Result State :=
  bindR (readOperand s src) fun v => .next (andA s v 1)

/-- XRA (R145). -/
def execXra (src : Reg8) (s : State) : Result State :=
  bindR (readOperand s src) fun v => .next (xorA s v 1)

/-- ORA (R146). -/
def execOra (src : Reg8) (s : State) : Result State :=
  bindR (readOperand s src) fun v => .next (orA s v 1)

/-- CMP (R147): writes the Auxiliary Carry Bit as SUB does (C5, D11, log entry 21). -/
def execCmp (src : Reg8) (s : State) : Result State :=
  bindR (readOperand s src) fun v => .next (compareA s v 1)

end Sys2Proof.Machine
end

