-- ==== Sys2Proof/Machine/Branching.lean ====
section
/-! DEFINITION. Branching instructions (spec/46_branching.md R190 to R195): only `pc` changes. -/

namespace Sys2Proof.Machine

/-- A conditional jump: to the address if the condition holds, else past its three bytes (R190). -/
def jumpIf (cond : Bool) (addr : Word) (s : State) : Result State :=
  if cond then .next (s.withPc addr) else .next (s.advance 3)

/-- PCHL (R191). -/
def execPchl (s : State) : Result State := .next (s.withPc (pairValue s .hl))

/-- JMP (R192). -/
def execJmp (addr : Word) (s : State) : Result State := .next (s.withPc addr)

/-- JC (R193): jumps when the Carry Bit is 1. -/
def execJc (addr : Word) (s : State) : Result State := jumpIf s.flags.cy addr s

/-- JNC (R194): jumps when the Carry Bit is 0. -/
def execJnc (addr : Word) (s : State) : Result State := jumpIf (!s.flags.cy) addr s

/-- JZ (R195): jumps when the Zero Bit is 1 (C6). -/
def execJz (addr : Word) (s : State) : Result State := jumpIf s.flags.z addr s

end Sys2Proof.Machine
end

