-- ==== Sys2Proof/Machine/DataTransfer.lean ====
section
/-! DEFINITION. Data transfer instructions (spec/42_data_transfer.md R130 to R132): no status bit. -/

namespace Sys2Proof.Machine

/-- MOV dst,src (R130): `W8(DDD, R8(SSS))`. The term MOV M,M is no instruction and is refused as its byte 0x76 is
(R83, log entry 31). -/
def execMov (dst src : Reg8) (s : State) : Result State :=
  if dst = .m ∧ src = .m then .refused (.unspecifiedByte 0x76#8)
  else
    bindR (readOperand s src) fun v =>
    bindR (writeOperand s dst v) fun t => .next (t.advance 1)

/-- STAX (R131). -/
def execStax (x : XPair) (s : State) : Result State :=
  bindR (writeByte s (xValue s x) s.regs.a) fun t => .next (t.advance 1)

/-- LDAX (R132). -/
def execLdax (x : XPair) (s : State) : Result State :=
  bindR (readByte s (xValue s x)) fun v => .next ((s.withA v).advance 1)

end Sys2Proof.Machine
end

