-- ==== Sys2Proof/Machine/DirectAddressing.lean ====
section
/-! DEFINITION. Direct addressing instructions (spec/44_direct_addressing.md R160 to R163): no status bit. -/

namespace Sys2Proof.Machine

/-- STA (R160). -/
def execSta (addr : Word) (s : State) : Result State :=
  bindR (writeByte s addr s.regs.a) fun t => .next (t.advance 3)

/-- LDA (R161). -/
def execLda (addr : Word) (s : State) : Result State :=
  bindR (readByte s addr) fun v => .next ((s.withA v).advance 3)

/-- SHLD (R162): L at the address, H at the next higher one. -/
def execShld (addr : Word) (s : State) : Result State :=
  bindR (writeTwo s addr (pairValue s .hl)) fun t => .next (t.advance 3)

/-- LHLD (R163): L from the address, H from the next higher one. -/
def execLhld (addr : Word) (s : State) : Result State :=
  bindR (readTwo s addr) fun v => .next ((s.withPair .hl v).advance 3)

end Sys2Proof.Machine
end

