-- ==== Sys2Proof/Machine/Immediate.lean ====
section
/-! DEFINITION. Immediate instructions (spec/45_immediate.md R170 to R180). -/

namespace Sys2Proof.Machine

/-- LXI rp,d16 (R170): Byte 2 to the second register, Byte 3 to the first (C1). -/
def execLxi (rp : Pair) (data : Word) (s : State) : Result State :=
  .next ((s.withPair rp data).advance 3)

/-- LXI SP,d16 (R170): `sp <- b3 ++ b2`, or `b2 ++ b3` under `LXI_SP_SWAPPED` (C2, D7, log entry 16). -/
def execLxiSp (data : Word) (s : State) : Result State :=
  let v := if s.cfg.lxiSpSwapped then join (loByte data) (hiByte data) else data
  .next ((s.withSp v).advance 3)

/-- MVI r,d8 (R171): `W8(DDD, b2)`. -/
def execMvi (dst : Reg8) (data : Byte) (s : State) : Result State :=
  bindR (writeOperand s dst data) fun t => .next (t.advance 2)

/-- ADI (R172). -/
def execAdi (data : Byte) (s : State) : Result State := .next (addToA s data false 2)

/-- ACI (R173). -/
def execAci (data : Byte) (s : State) : Result State := .next (addToA s data s.flags.cy 2)

/-- SUI (R174). -/
def execSui (data : Byte) (s : State) : Result State := .next (subFromA s data false 2)

/-- SBI (R175): `b2 + CY` is not cut to 8 bits (D12, log entry 25). -/
def execSbi (data : Byte) (s : State) : Result State := .next (subFromA s data s.flags.cy 2)

/-- ANI (R176). -/
def execAni (data : Byte) (s : State) : Result State := .next (andA s data 2)

/-- XRI (R177). -/
def execXri (data : Byte) (s : State) : Result State := .next (xorA s data 2)

/-- ORI (R178). -/
def execOri (data : Byte) (s : State) : Result State := .next (orA s data 2)

/-- CPI (R179). -/
def execCpi (data : Byte) (s : State) : Result State := .next (compareA s data 2)

end Sys2Proof.Machine
end

