-- ==== Sys2Proof/Machine/RegisterPair.lean ====
section
/-! DEFINITION. Register pair instructions (spec/40_register_pair.md R100 to R109). -/

namespace Sys2Proof.Machine

/-- PUSH rp (R100): the first register to `sp-1`, the second to `sp-2`. -/
def execPush (rp : Pair) (s : State) : Result State :=
  bindR (pushTwo s (hiByte (pairValue s rp)) (loByte (pairValue s rp))) fun t => .next (t.advance 1)

/-- PUSH PSW (R101): the Status Bit Register is the first register under `PSW_FLAGS_HIGH`, else A is (log entry 17). -/
def execPushPsw (s : State) : Result State :=
  let hi := if s.cfg.pswFlagsHigh then flagsByte s.flags else s.regs.a
  let lo := if s.cfg.pswFlagsHigh then s.regs.a else flagsByte s.flags
  bindR (pushTwo s hi lo) fun t => .next (t.advance 1)

/-- POP rp (R102): the second register from `sp`, the first from `sp+1`. -/
def execPop (rp : Pair) (s : State) : Result State :=
  bindR (readTwo s s.sp) fun v => .next (((s.withPair rp v).withSp (s.sp + 2#16)).advance 1)

/-- POP PSW (R103): the status bits from `sp+1` and A from `sp` under `PSW_FLAGS_HIGH`, else the other way (log entry 17). -/
def execPopPsw (s : State) : Result State :=
  bindR (readTwo s s.sp) fun v =>
    let fl := if s.cfg.pswFlagsHigh then hiByte v else loByte v
    let a := if s.cfg.pswFlagsHigh then loByte v else hiByte v
    .next ((((s.withA a).withFlags (setFlags fl)).withSp (s.sp + 2#16)).advance 1)

/-- `HL <- HL + v`, Carry the carry out of bit 15, no other status bit (R104). -/
def doubleAdd (s : State) (v : Word) : State :=
  let s17 : BitVec 17 := (pairValue s .hl).setWidth 17 + v.setWidth 17
  ((s.withPair .hl (s17.extractLsb' 0 16)).withCy (s17.getLsbD 16)).advance 1

/-- DAD rp (R104). -/
def execDad (rp : Pair) (s : State) : Result State := .next (doubleAdd s (pairValue s rp))

/-- Pair code 11 in DAD, INX and DCX: the Stack Pointer, or refused, as `RP11_ARITH` says (R23, R226, log entries 15, 30). -/
def withRp11 (s : State) (b1 : Byte) (t : State) : Result State :=
  match s.cfg.rp11Arith with
  | .sp => .next t
  | .refuse => .refused (.rp11Refused b1)

/-- DAD SP (R104). -/
def execDadSp (s : State) : Result State := withRp11 s 0x39#8 (doubleAdd s s.sp)

/-- INX rp (R105): 16 bits, no status bit. -/
def execInx (rp : Pair) (s : State) : Result State :=
  .next ((s.withPair rp (pairValue s rp + 1#16)).advance 1)

/-- INX SP (R105). -/
def execInxSp (s : State) : Result State := withRp11 s 0x33#8 ((s.withSp (s.sp + 1#16)).advance 1)

/-- DCX rp (R106): 16 bits, no status bit. -/
def execDcx (rp : Pair) (s : State) : Result State :=
  .next ((s.withPair rp (pairValue s rp - 1#16)).advance 1)

/-- DCX SP (R106). -/
def execDcxSp (s : State) : Result State := withRp11 s 0x3B#8 ((s.withSp (s.sp - 1#16)).advance 1)

/-- XCHG (R107): HL and DE change places. -/
def execXchg (s : State) : Result State :=
  .next (((s.withPair .hl (pairValue s .de)).withPair .de (pairValue s .hl)).advance 1)

/-- XTHL (R108): HL and the two bytes at `sp` change places; both reads come before both writes (R64). -/
def execXthl (s : State) : Result State :=
  bindR (readTwo s s.sp) fun v =>
  bindR (writeTwo s s.sp (pairValue s .hl)) fun t => .next ((t.withPair .hl v).advance 1)

/-- SPHL (R109): no status bit (log entry 22). -/
def execSphl (s : State) : Result State := .next ((s.withSp (pairValue s .hl)).advance 1)

end Sys2Proof.Machine
end

