-- ==== Sys2Proof/Machine/Rotate.lean ====
section
/-! DEFINITION. Rotate accumulator instructions (spec/41_rotate.md R120 to R123): Carry alone of the status bits. -/

namespace Sys2Proof.Machine

/-- `v[6:0] ++ c`: one place to the left, `c` into bit 0. -/
def shiftInLow (v : Byte) (c : Bool) : Byte := v.extractLsb' 0 7 ++ BitVec.ofBool c

/-- `c ++ v[7:1]`: one place to the right, `c` into bit 7. -/
def shiftInHigh (v : Byte) (c : Bool) : Byte := BitVec.ofBool c ++ v.extractLsb' 1 7

/-- RLC (R120): `A <- A[6:0] ++ A[7]`, Carry takes A[7]. -/
def execRlc (s : State) : Result State :=
  let a := s.regs.a
  .next (((s.withA (shiftInLow a (a.getLsbD 7))).withCy (a.getLsbD 7)).advance 1)

/-- RRC (R121): `A <- A[0] ++ A[7:1]`, Carry takes A[0]. -/
def execRrc (s : State) : Result State :=
  let a := s.regs.a
  .next (((s.withA (shiftInHigh a (a.getLsbD 0))).withCy (a.getLsbD 0)).advance 1)

/-- RAL (R122): `A <- A[6:0] ++ CY`, Carry takes A[7]. -/
def execRal (s : State) : Result State :=
  let a := s.regs.a
  .next (((s.withA (shiftInLow a s.flags.cy)).withCy (a.getLsbD 7)).advance 1)

/-- RAR (R123): `A <- CY ++ A[7:1]`, Carry takes A[0]. -/
def execRar (s : State) : Result State :=
  let a := s.regs.a
  .next (((s.withA (shiftInHigh a s.flags.cy)).withCy (a.getLsbD 0)).advance 1)

end Sys2Proof.Machine
end

