-- ==== Sys2Proof/Machine/Dispatch.lean ====
section
/-! DEFINITION. What each instruction does: one arm per constructor of Instr, one direct call each. -/

namespace Sys2Proof.Machine

def exec (i : Instr) (s : State) : Host.Outcome State Fault Refusal :=
  match i with
  | .push rp => Sys2Proof.Machine.execPush rp s
  | .pushPsw => Sys2Proof.Machine.execPushPsw s
  | .pop rp => Sys2Proof.Machine.execPop rp s
  | .popPsw => Sys2Proof.Machine.execPopPsw s
  | .dad rp => Sys2Proof.Machine.execDad rp s
  | .dadSp => Sys2Proof.Machine.execDadSp s
  | .inx rp => Sys2Proof.Machine.execInx rp s
  | .inxSp => Sys2Proof.Machine.execInxSp s
  | .dcx rp => Sys2Proof.Machine.execDcx rp s
  | .dcxSp => Sys2Proof.Machine.execDcxSp s
  | .xchg => Sys2Proof.Machine.execXchg s
  | .xthl => Sys2Proof.Machine.execXthl s
  | .sphl => Sys2Proof.Machine.execSphl s
  | .rlc => Sys2Proof.Machine.execRlc s
  | .rrc => Sys2Proof.Machine.execRrc s
  | .ral => Sys2Proof.Machine.execRal s
  | .rar => Sys2Proof.Machine.execRar s
  | .mov dst src => Sys2Proof.Machine.execMov dst src s
  | .stax x => Sys2Proof.Machine.execStax x s
  | .ldax x => Sys2Proof.Machine.execLdax x s
  | .add src => Sys2Proof.Machine.execAdd src s
  | .adc src => Sys2Proof.Machine.execAdc src s
  | .sub src => Sys2Proof.Machine.execSub src s
  | .sbb src => Sys2Proof.Machine.execSbb src s
  | .ana src => Sys2Proof.Machine.execAna src s
  | .xra src => Sys2Proof.Machine.execXra src s
  | .ora src => Sys2Proof.Machine.execOra src s
  | .cmp src => Sys2Proof.Machine.execCmp src s
  | .sta addr => Sys2Proof.Machine.execSta addr s
  | .lda addr => Sys2Proof.Machine.execLda addr s
  | .shld addr => Sys2Proof.Machine.execShld addr s
  | .lhld addr => Sys2Proof.Machine.execLhld addr s
  | .lxi rp data => Sys2Proof.Machine.execLxi rp data s
  | .lxiSp data => Sys2Proof.Machine.execLxiSp data s
  | .mvi dst data => Sys2Proof.Machine.execMvi dst data s
  | .adi data => Sys2Proof.Machine.execAdi data s
  | .aci data => Sys2Proof.Machine.execAci data s
  | .sui data => Sys2Proof.Machine.execSui data s
  | .sbi data => Sys2Proof.Machine.execSbi data s
  | .ani data => Sys2Proof.Machine.execAni data s
  | .xri data => Sys2Proof.Machine.execXri data s
  | .ori data => Sys2Proof.Machine.execOri data s
  | .cpi data => Sys2Proof.Machine.execCpi data s
  | .pchl => Sys2Proof.Machine.execPchl s
  | .jmp addr => Sys2Proof.Machine.execJmp addr s
  | .jc addr => Sys2Proof.Machine.execJc addr s
  | .jnc addr => Sys2Proof.Machine.execJnc addr s
  | .jz addr => Sys2Proof.Machine.execJz addr s

end Sys2Proof.Machine
end

