-- ==== Sys2Proof/WellFormed.lean ====
section
/-! DEFINITION. Which terms of `Instr` are instructions of the machine. -/

namespace Sys2Proof

/-- Every term is an instruction but one: "The source and destination registers cannot both equal 110"
(spec/30_encoding.md R73, R83), so MOV M,M is none. -/
def Instr.wellFormed : Instr → Bool
  | .mov dst src => !(dst == .m && src == .m)
  | .push _ | .pushPsw | .pop _ | .popPsw | .dad _ | .dadSp | .inx _ | .inxSp | .dcx _ | .dcxSp => true
  | .xchg | .xthl | .sphl => true
  | .rlc | .rrc | .ral | .rar => true
  | .stax _ | .ldax _ => true
  | .add _ | .adc _ | .sub _ | .sbb _ | .ana _ | .xra _ | .ora _ | .cmp _ => true
  | .sta _ | .lda _ | .shld _ | .lhld _ => true
  | .lxi _ _ | .lxiSp _ | .mvi _ _ => true
  | .adi _ | .aci _ | .sui _ | .sbi _ | .ani _ | .xri _ | .ori _ | .cpi _ => true
  | .pchl | .jmp _ | .jc _ | .jnc _ | .jz _ => true

end Sys2Proof
end

