-- ==== Sys2Proof/Decode.lean ====
section
/-! DEFINITION. Decoding and encoding (spec/30_encoding.md). Byte 1 alone decides the instruction and its length (R70);
the decoder is total on bytes (R86) and rejects by name. -/

namespace Sys2Proof

/-- Why a list of bytes is no instruction. -/
inductive DecodeError where
  /-- The first byte is one of the 69 values of R82. -/
  | unspecified (b1 : Byte)
  /-- The list ends before the instruction does. -/
  | truncated
deriving DecidableEq, Repr

/-- What the decoder answers: an instruction and the bytes after it, or a rejection. -/
inductive Decoded where
  | instr (i : Instr) (rest : List Byte)
  | rejected (why : DecodeError)
deriving DecidableEq, Repr

/-- What Byte 1 says: a one-byte instruction, one that takes Byte 2 as data, or one that takes Bytes 2 and 3 (R70). -/
inductive Form where
  | one (i : Instr)
  | two (f : Byte → Instr)
  | three (f : Word → Instr)

/-- The length of the form in bytes (R70). -/
def Form.length : Form → Nat
  | .one _ => 1
  | .two _ => 2
  | .three _ => 3

/-- The register code table of R21. -/
def decodeReg (code : BitVec 3) : Reg8 :=
  match code.toNat with
  | 0 => .b
  | 1 => .c
  | 2 => .d
  | 3 => .e
  | 4 => .h
  | 5 => .l
  | 6 => .m
  | _ => .a

/-- The register pair code table of R23, with the instruction that code 11 selects given by the caller. -/
def decodePair {α : Type} (code : BitVec 2) (f : Pair → α) (code11 : α) : α :=
  match code.toNat with
  | 0 => f .bc
  | 1 => f .de
  | 2 => f .hl
  | _ => code11

/-- Bytes `00 xxx xxx` (R81, first group): LXI, DAD, STAX, LDAX, the direct addressing instructions, INX, DCX, MVI, rotates. -/
def decodeGroup00 (b1 : Byte) : Option Form :=
  let rp := b1.extractLsb' 4 2
  match (b1.extractLsb' 0 3).toNat with
  | 1 =>
    if b1.getLsbD 3 then some (.one (decodePair rp .dad .dadSp))
    else some (.three (decodePair rp .lxi .lxiSp))
  | 2 =>
    match (b1.extractLsb' 3 3).toNat with
    | 0 => some (.one (.stax .bc))
    | 1 => some (.one (.ldax .bc))
    | 2 => some (.one (.stax .de))
    | 3 => some (.one (.ldax .de))
    | 4 => some (.three .shld)
    | 5 => some (.three .lhld)
    | 6 => some (.three .sta)
    | _ => some (.three .lda)
  | 3 =>
    if b1.getLsbD 3 then some (.one (decodePair rp .dcx .dcxSp))
    else some (.one (decodePair rp .inx .inxSp))
  | 6 => some (.two (.mvi (decodeReg (b1.extractLsb' 3 3))))
  | 7 =>
    match (b1.extractLsb' 3 3).toNat with
    | 0 => some (.one .rlc)
    | 1 => some (.one .rrc)
    | 2 => some (.one .ral)
    | 3 => some (.one .rar)
    | _ => none
  | _ => none

/-- Bytes `01 DDD SSS` (R73): MOV, except `0x76` (R83). -/
def decodeGroup01 (b1 : Byte) : Option Form :=
  if b1 = 0x76#8 then none
  else some (.one (.mov (decodeReg (b1.extractLsb' 3 3)) (decodeReg (b1.extractLsb' 0 3))))

/-- Bytes `10 ooo SSS` (R74): the eight register/memory to accumulator transfers. -/
def decodeGroup10 (b1 : Byte) : Option Form :=
  let src := decodeReg (b1.extractLsb' 0 3)
  match (b1.extractLsb' 3 3).toNat with
  | 0 => some (.one (.add src))
  | 1 => some (.one (.adc src))
  | 2 => some (.one (.sub src))
  | 3 => some (.one (.sbb src))
  | 4 => some (.one (.ana src))
  | 5 => some (.one (.xra src))
  | 6 => some (.one (.ora src))
  | _ => some (.one (.cmp src))

/-- Bytes `11 ooo 110` (R77): the eight accumulator immediates. -/
def decodeImmediate (b1 : Byte) : Form :=
  match (b1.extractLsb' 3 3).toNat with
  | 0 => .two .adi
  | 1 => .two .aci
  | 2 => .two .sui
  | 3 => .two .sbi
  | 4 => .two .ani
  | 5 => .two .xri
  | 6 => .two .ori
  | _ => .two .cpi

/-- Bytes `11 xxx xxx` (R81, last group): POP, PUSH, the immediate group, and eight single bytes. -/
def decodeGroup11 (b1 : Byte) : Option Form :=
  let rp := b1.extractLsb' 4 2
  if b1.extractLsb' 0 4 = 0b0001#4 then some (.one (decodePair rp .pop .popPsw))
  else if b1.extractLsb' 0 4 = 0b0101#4 then some (.one (decodePair rp .push .pushPsw))
  else if b1.extractLsb' 0 3 = 0b110#3 then some (decodeImmediate b1)
  else
    match b1.toNat with
    | 0xC3 => some (.three .jmp)
    | 0xCA => some (.three .jz)
    | 0xD2 => some (.three .jnc)
    | 0xDA => some (.three .jc)
    | 0xE3 => some (.one .xthl)
    | 0xE9 => some (.one .pchl)
    | 0xEB => some (.one .xchg)
    | 0xF9 => some (.one .sphl)
    | _ => none

/-- The meaning of every value of Byte 1, by its top two bits (R81); none for the 69 unspecified values (R82). -/
def decodeFirst (b1 : Byte) : Option Form :=
  match (b1.extractLsb' 6 2).toNat with
  | 0 => decodeGroup00 b1
  | 1 => decodeGroup01 b1
  | 2 => decodeGroup10 b1
  | _ => decodeGroup11 b1

/-- The length of the instruction whose first byte is `b1` (R70), none where R82 gives it no meaning. -/
def instrLength (b1 : Byte) : Option Nat := (decodeFirst b1).map Form.length

/-- The rest of decoding once Byte 1 is read. Byte 2 is the low half of a 16-bit operand (R11, R80). -/
def decodeTail : Form → List Byte → Decoded
  | .one i, rest => .instr i rest
  | .two f, b2 :: rest => .instr (f b2) rest
  | .two _, [] => .rejected .truncated
  | .three f, b2 :: b3 :: rest => .instr (f (Machine.join b3 b2)) rest
  | .three _, [_] => .rejected .truncated
  | .three _, [] => .rejected .truncated

/-- Decoding the bytes at ascending addresses (R70, R86). -/
def decode : List Byte → Decoded
  | [] => .rejected .truncated
  | b1 :: rest =>
    match decodeFirst b1 with
    | none => .rejected (.unspecified b1)
    | some form => decodeTail form rest

/-- The 3-bit register code (R21). -/
def regCode : Reg8 → BitVec 3
  | .b => 0b000#3
  | .c => 0b001#3
  | .d => 0b010#3
  | .e => 0b011#3
  | .h => 0b100#3
  | .l => 0b101#3
  | .m => 0b110#3
  | .a => 0b111#3

/-- The 2-bit register pair code (R23). -/
def pairCode : Pair → BitVec 2
  | .bc => 0b00#2
  | .de => 0b01#2
  | .hl => 0b10#2

/-- The one-bit field X (R75). -/
def xCode : XPair → BitVec 1
  | .bc => 0b0#1
  | .de => 0b1#1

/-- A three-byte instruction: Byte 1, then the low and the high half of the operand (R78, R79, R80). -/
def encode3 (b1 : Byte) (v : Word) : List Byte := [b1, Machine.loByte v, Machine.hiByte v]

/-- The bytes of an instruction, from the formats of R71 to R79 as `opcode_table.json` prints them. -/
def encode : Instr → List Byte
  | .push rp => [0b11#2 ++ pairCode rp ++ 0b0101#4]
  | .pushPsw => [0b11110101#8]
  | .pop rp => [0b11#2 ++ pairCode rp ++ 0b0001#4]
  | .popPsw => [0b11110001#8]
  | .dad rp => [0b00#2 ++ pairCode rp ++ 0b1001#4]
  | .dadSp => [0b00111001#8]
  | .inx rp => [0b00#2 ++ pairCode rp ++ 0b0011#4]
  | .inxSp => [0b00110011#8]
  | .dcx rp => [0b00#2 ++ pairCode rp ++ 0b1011#4]
  | .dcxSp => [0b00111011#8]
  | .xchg => [0b11101011#8]
  | .xthl => [0b11100011#8]
  | .sphl => [0b11111001#8]
  | .rlc => [0b00000111#8]
  | .rrc => [0b00001111#8]
  | .ral => [0b00010111#8]
  | .rar => [0b00011111#8]
  | .mov dst src => [0b01#2 ++ regCode dst ++ regCode src]
  | .stax x => [0b000#3 ++ xCode x ++ 0b0010#4]
  | .ldax x => [0b000#3 ++ xCode x ++ 0b1010#4]
  | .add src => [0b10000#5 ++ regCode src]
  | .adc src => [0b10001#5 ++ regCode src]
  | .sub src => [0b10010#5 ++ regCode src]
  | .sbb src => [0b10011#5 ++ regCode src]
  | .ana src => [0b10100#5 ++ regCode src]
  | .xra src => [0b10101#5 ++ regCode src]
  | .ora src => [0b10110#5 ++ regCode src]
  | .cmp src => [0b10111#5 ++ regCode src]
  | .sta addr => encode3 0b00110010#8 addr
  | .lda addr => encode3 0b00111010#8 addr
  | .shld addr => encode3 0b00100010#8 addr
  | .lhld addr => encode3 0b00101010#8 addr
  | .lxi rp data => encode3 (0b00#2 ++ pairCode rp ++ 0b0001#4) data
  | .lxiSp data => encode3 0b00110001#8 data
  | .mvi dst data => [0b00#2 ++ regCode dst ++ 0b110#3, data]
  | .adi data => [0b11000110#8, data]
  | .aci data => [0b11001110#8, data]
  | .sui data => [0b11010110#8, data]
  | .sbi data => [0b11011110#8, data]
  | .ani data => [0b11100110#8, data]
  | .xri data => [0b11101110#8, data]
  | .ori data => [0b11110110#8, data]
  | .cpi data => [0b11111110#8, data]
  | .pchl => [0b11101001#8]
  | .jmp addr => encode3 0b11000011#8 addr
  | .jc addr => encode3 0b11011010#8 addr
  | .jnc addr => encode3 0b11010010#8 addr
  | .jz addr => encode3 0b11001010#8 addr

/-- The bytes of a table word: byte k is bits 8k+7 to 8k, every bit from `nbits` on is 0, three bytes being the longest
instruction (R70). -/
def tableBytes (nbits w : Nat) : List Byte :=
  let v := w % 2 ^ nbits
  [BitVec.ofNat 8 v, BitVec.ofNat 8 (v / 256), BitVec.ofNat 8 (v / 65536)]

/-- The instruction the decoder reads from a table word, its first byte in bits 7 to 0. -/
def decodeTableWord (nbits w : Nat) : Option Instr :=
  match decode (tableBytes nbits w) with
  | .instr i _ => some i
  | .rejected _ => none

end Sys2Proof
end

