-- ==== Sys2Proof/Machine/Fetch.lean ====
section
/-! DEFINITION. Fetching and decoding the instruction at `pc` (spec/00_scope.md R11, spec/70_reset_and_hazards.md R226), and
placing one there. -/

namespace Sys2Proof.Machine

/-- Fetch one instruction byte: stuck outside `MEM_MAP` (R56). -/
def fetchByte (s : State) (a : Word) : Result Byte :=
  if memPresent s.cfg a then .next (s.mem.read a) else .fault (.stuckFetch a)

/-- Fetch `n` bytes at ascending addresses (R52, R55, R70). -/
def fetchBytes (s : State) : Nat → Word → Result (List Byte)
  | 0, _ => .next []
  | n + 1, a => bindR (fetchByte s a) fun b => bindR (fetchBytes s n (a + 1#16)) fun bs => .next (b :: bs)

/-- The first part of a step (R226): at END_PC the run is over; otherwise Byte 1, then as many more bytes as it says, all
before any data access (R61, D2), then the instruction they are. -/
def fetch (s : State) : Result Instr :=
  if s.cfg.endPc = some s.pc then .fault .runOver
  else
    bindR (fetchByte s s.pc) fun b1 =>
    match instrLength b1 with
    | none => .refused (.unspecifiedByte b1)
    | some n =>
      bindR (fetchBytes s n s.pc) fun bs =>
      match decode bs with
      | .instr i _ => .next i
      | .rejected _ => .refused (.unspecifiedByte b1)

/-- Store bytes at ascending addresses, as a loader outside the machine does (R213, log entry 8). -/
def placeBytes (m : Memory) : Word → List Byte → Memory
  | _, [] => m
  | a, b :: bs => placeBytes (m.write a b) (a + 1#16) bs

end Sys2Proof.Machine
end

