-- ==== Sys2Proof/Machine/Step.lean ====
section
/-! DEFINITION. One step (spec/70_reset_and_hazards.md R226): fetch the instruction at `pc` and execute it. -/

namespace Sys2Proof.Machine

/-- A step has the outcomes of R12: a next state, a refusal, or no step. -/
def step (s : State) : Host.Outcome State Fault Refusal := bindR (fetch s) fun i => exec i s

/-- `s` with the instruction whose bits are `w` stored where the next step fetches, at `pc` and the two addresses after it. -/
def State.withFetchWord (s : State) (nbits w : Nat) : State :=
  s.withMem (placeBytes s.mem s.pc (tableBytes nbits w))

end Sys2Proof.Machine
end

