-- ==== Sys2Proof/Safety.lean ====
section
/-! DEFINITION. What a final state, a launch state and a completed run are (spec/70_reset_and_hazards.md R220, R224). -/

namespace Sys2Proof.Machine

/-- The run is over: `pc == END_PC` at the start of a step (R224). -/
def State.final (s : State) : Prop := s.cfg.endPc = some s.pc

/-- A launch state (R220): `pc` is START_PC, everything else is arbitrary. -/
def State.launch (s : State) : Prop := s.pc = s.cfg.startPc

/-- `n` steps lead from `s` to the final state `t`. A refused or stuck state is never final (R201, R224). -/
def completesIn (n : Nat) (s t : State) : Prop := Sys2Proof.core.run n s = .next t ∧ t.final

/-- Reachable by any number of steps. -/
inductive Reaches : State → State → Prop where
  | refl (s : State) : Reaches s s
  | step (s t u : State) (h : Reaches s t) (h2 : Sys2Proof.Machine.step t = .next u) : Reaches s u

/-- All 65,536 addresses are present and writable, the choice R56 allows a model. -/
def fullMemory (c : Config) : Prop := ∀ a : Word, memWritable c a = true

end Sys2Proof.Machine
end

