-- ==== Sys2Proof/Certificates/Slice0/Obligations.lean ====
section
/-! DEFINITION. The statements for the provers, and the vocabulary they are written in. An arithmetic result is stated in
integers, a logical or rotated one bit by bit, a frame field by field, so that no statement repeats the model's own text. -/

namespace Sys2Proof.Claims

open Sys2Proof.Machine

/-! ### Vocabulary -/

/-- Every byte of memory reads as before. -/
def SameMemory (s t : State) : Prop := ∀ a : Word, t.mem.read a = s.mem.read a

/-- Every byte of memory outside the listed addresses reads as before. -/
def SameMemoryBut (s t : State) (stored : List Word) : Prop :=
  ∀ a : Word, a ∉ stored → t.mem.read a = s.mem.read a

/-- `sp`, the parameters and all of memory are unchanged, and `pc` is `len` further on. -/
def OnlyRegsAndFlags (s t : State) (len : Nat) : Prop :=
  t.sp = s.sp ∧ t.pc = s.pc + BitVec.ofNat 16 len ∧ t.cfg = s.cfg ∧ SameMemory s t

/-- Every register but A is unchanged. -/
def SameRegsButA (s t : State) : Prop := t.regs = { s.regs with a := t.regs.a }

/-- The byte an operand code selects: a register, or for M the memory byte at `H ++ L` (R6, R21; M: log entry 12). -/
def operandByte (s : State) : Reg8 → Byte
  | .b => s.regs.b
  | .c => s.regs.c
  | .d => s.regs.d
  | .e => s.regs.e
  | .h => s.regs.h
  | .l => s.regs.l
  | .m => s.mem.read (pairValue s .hl)
  | .a => s.regs.a

/-- The registers after an operand code other than M is written. -/
def regsWritten (s : State) (r : Reg8) (v : Byte) : Regs :=
  match r with
  | .b => { s.regs with b := v }
  | .c => { s.regs with c := v }
  | .d => { s.regs with d := v }
  | .e => { s.regs with e := v }
  | .h => { s.regs with h := v }
  | .l => { s.regs with l := v }
  | .m => s.regs
  | .a => { s.regs with a := v }

/-- The registers after a pair is written: the first register holds the most significant half (R22). -/
def regsPaired (s : State) (rp : Pair) (hi lo : Byte) : Regs :=
  match rp with
  | .bc => { s.regs with b := hi, c := lo }
  | .de => { s.regs with d := hi, e := lo }
  | .hl => { s.regs with h := hi, l := lo }

/-- The two registers of a pair, the first and the second (R22). -/
def pairHalves (s : State) : Pair → Byte × Byte
  | .bc => (s.regs.b, s.regs.c)
  | .de => (s.regs.d, s.regs.e)
  | .hl => (s.regs.h, s.regs.l)

/-- The operand is readable: only M needs a present address. -/
def Readable (s : State) (r : Reg8) : Prop := r = .m → memPresent s.cfg (pairValue s .hl) = true

/-- The operand is writable: only M needs a writable address. -/
def Writable (s : State) (r : Reg8) : Prop := r = .m → memWritable s.cfg (pairValue s .hl) = true

/-- How many of the eight bits are 1. -/
def ones (v : Byte) : Nat := ((List.range 8).filter fun k => v.getLsbD k).length

/-- Sign, Zero and Parity say what the result `v` is (R8, R29; Sign: log entry 13, Parity: log entry 32). -/
def ResultBits (f : Flags) (v : Byte) : Prop :=
  f.s = decide (128 ≤ v.toNat) ∧ f.z = decide (v.toNat = 0) ∧ f.p = decide (ones v % 2 = 0)

/-- The instruction completes and adds `v` and `c` to A, with all five status bits (R9). -/
def Adds (i : Instr) (s : State) (v : Byte) (c : Bool) (len : Nat) : Prop :=
  ∃ t, exec i s = .next t ∧ SameRegsButA s t ∧ OnlyRegsAndFlags s t len ∧
    t.regs.a.toNat = (s.regs.a.toNat + v.toNat + c.toNat) % 256 ∧
    t.flags.cy = decide (256 ≤ s.regs.a.toNat + v.toNat + c.toNat) ∧
    t.flags.ac = decide (16 ≤ s.regs.a.toNat % 16 + v.toNat % 16 + c.toNat) ∧
    ResultBits t.flags t.regs.a

/-- The instruction completes and takes `v` and `c` from A, with all five status bits (R10); AC is `AUX_SUB`. -/
def Subtracts (i : Instr) (s : State) (v : Byte) (c : Bool) (len : Nat) : Prop :=
  ∃ t, exec i s = .next t ∧ SameRegsButA s t ∧ OnlyRegsAndFlags s t len ∧
    (t.regs.a.toNat : Int) = ((s.regs.a.toNat : Int) - v.toNat - c.toNat) % 256 ∧
    t.flags.cy = decide (s.regs.a.toNat < v.toNat + c.toNat) ∧
    t.flags.ac = auxSub s.cfg.auxSub s.regs.a v c ∧
    ResultBits t.flags t.regs.a

/-- The instruction completes and compares `v` with A: no register changes, the status bits are the subtraction's (R147). -/
def Compares (i : Instr) (s : State) (v : Byte) (len : Nat) : Prop :=
  ∃ t, exec i s = .next t ∧ t.regs = s.regs ∧ OnlyRegsAndFlags s t len ∧
    t.flags.z = decide (v = s.regs.a) ∧
    t.flags.cy = decide (s.regs.a.toNat < v.toNat) ∧
    t.flags.ac = auxSub s.cfg.auxSub s.regs.a v false ∧
    ∃ d : Byte, (d.toNat : Int) = ((s.regs.a.toNat : Int) - v.toNat) % 256 ∧ ResultBits t.flags d

/-- The instruction completes and puts `f` of A and `v`, bit by bit, into A: Carry 0, Sign, Zero and Parity from the result,
the Auxiliary Carry Bit kept under `LOGIC_AC = unaffected` and `chipAc` under `LOGIC_AC = chip` (R144). -/
def Combines (f : Bool → Bool → Bool) (i : Instr) (s : State) (v : Byte) (chipAc : Bool) (len : Nat) : Prop :=
  ∃ t, exec i s = .next t ∧ SameRegsButA s t ∧ OnlyRegsAndFlags s t len ∧
    (∀ k, k < 8 → t.regs.a.getLsbD k = f (s.regs.a.getLsbD k) (v.getLsbD k)) ∧
    t.flags.cy = false ∧
    (s.cfg.logicAc = .unaffected → t.flags.ac = s.flags.ac) ∧
    (s.cfg.logicAc = .chip → t.flags.ac = chipAc) ∧
    ResultBits t.flags t.regs.a

/-- The instruction completes, changes A and Carry alone, and moves on by one byte. -/
def Rotates (i : Instr) (s : State) (bit : Nat → Bool) (cy : Bool) : Prop :=
  ∃ t, exec i s = .next t ∧ SameRegsButA s t ∧ OnlyRegsAndFlags s t 1 ∧
    (∀ k, k < 8 → t.regs.a.getLsbD k = bit k) ∧ t.flags = { s.flags with cy := cy }

/-- The instruction completes and changes `pc` alone. -/
def JumpsTo (i : Instr) (s : State) (target : Word) : Prop :=
  ∃ t, exec i s = .next t ∧ t.pc = target ∧ t.regs = s.regs ∧ t.flags = s.flags ∧ t.sp = s.sp ∧ t.cfg = s.cfg ∧
    SameMemory s t

/-- The instruction completes, stores the listed bytes, and changes no register, no status bit and no other byte. -/
def Stores (i : Instr) (s : State) (cells : List (Word × Byte)) (sp : Word) (len : Nat) : Prop :=
  ∃ t, exec i s = .next t ∧ t.regs = s.regs ∧ t.flags = s.flags ∧ t.sp = sp ∧
    t.pc = s.pc + BitVec.ofNat 16 len ∧ t.cfg = s.cfg ∧
    (∀ c ∈ cells, t.mem.read c.1 = c.2) ∧ SameMemoryBut s t (cells.map Prod.fst)

/-- The instruction completes with these registers and this `sp`, and changes no status bit and no byte of memory. -/
def Loads (i : Instr) (s : State) (regs : Regs) (sp : Word) (len : Nat) : Prop :=
  ∃ t, exec i s = .next t ∧ t.regs = regs ∧ t.flags = s.flags ∧ t.sp = sp ∧
    t.pc = s.pc + BitVec.ofNat 16 len ∧ t.cfg = s.cfg ∧ SameMemory s t

/-- The machine is stuck on a read, or on a write. -/
def StuckRead (o : Result State) : Prop := ∃ a, o = .fault (.stuckRead a)
def StuckWrite (o : Result State) : Prop := ∃ a, o = .fault (.stuckWrite a)

/-- The 69 first bytes to which the spec gives no meaning, as R82 lists them. -/
def unspecifiedBytes : List Byte :=
  [0x00, 0x04, 0x05, 0x08, 0x0C, 0x0D, 0x10, 0x14, 0x15, 0x18, 0x1C, 0x1D, 0x20, 0x24, 0x25, 0x27, 0x28, 0x2C, 0x2D, 0x2F,
   0x30, 0x34, 0x35, 0x37, 0x38, 0x3C, 0x3D, 0x3F, 0x76, 0xC0, 0xC2, 0xC4, 0xC7, 0xC8, 0xC9, 0xCB, 0xCC, 0xCD, 0xCF, 0xD0]
  ++
  [0xD3, 0xD4, 0xD7, 0xD8, 0xD9, 0xDB, 0xDC, 0xDD, 0xDF, 0xE0, 0xE2, 0xE4, 0xE7, 0xE8, 0xEA, 0xEC, 0xED, 0xEF, 0xF0, 0xF2,
   0xF3, 0xF4, 0xF7, 0xF8, 0xFA, 0xFB, 0xFC, 0xFD, 0xFF]

/-- The addresses an instruction stores to, computed as its meaning computes them; none for a form that stores nothing. -/
def storedAt (i : Instr) (s : State) : List Word :=
  match i with
  | .push _ | .pushPsw => [s.sp - 1#16, s.sp - 2#16]
  | .xthl => [s.sp, s.sp + 1#16]
  | .mov .m _ | .mvi .m _ => [pairValue s .hl]
  | .stax x => [xValue s x]
  | .sta addr => [addr]
  | .shld addr => [addr, addr + 1#16]
  | _ => []

/-- The register codes, as R21 lists them. -/
def regCodes : List (BitVec 3 × Reg8) :=
  [(0b000#3, .b), (0b001#3, .c), (0b010#3, .d), (0b011#3, .e), (0b100#3, .h), (0b101#3, .l), (0b110#3, .m), (0b111#3, .a)]

/-- The register pair codes 00, 01 and 10, as R23 lists them. -/
def pairCodes : List (BitVec 2 × Pair) := [(0b00#2, .bc), (0b01#2, .de), (0b10#2, .hl)]

/-- What a subtraction or comparison takes from A: the operand and the incoming borrow (R142, R143, R147, R174, R175, R179);
none for any other instruction. -/
def subtrahend (i : Instr) (s : State) : Option (Byte × Bool) :=
  match i with
  | .sub r | .cmp r => some (operandByte s r, false)
  | .sbb r => some (operandByte s r, s.flags.cy)
  | .sui d | .cpi d => some (d, false)
  | .sbi d => some (d, s.flags.cy)
  | _ => none

/-- Which status bits an instruction may write, as R31 lists them. -/
inductive Written where
  | none | carry | allButAux | all
deriving DecidableEq, Repr

def statusWritten : Instr → Written
  | .add _ | .adc _ | .sub _ | .sbb _ | .cmp _ | .adi _ | .aci _ | .sui _ | .sbi _ | .cpi _ | .popPsw => .all
  | .ana _ | .xra _ | .ora _ | .ani _ | .xri _ | .ori _ => .allButAux
  | .dad _ | .dadSp | .rlc | .rrc | .ral | .rar => .carry
  | _ => .none

/-- The branch instructions (R191 to R195). -/
def isBranch : Instr → Bool
  | .pchl | .jmp _ | .jc _ | .jnc _ | .jz _ => true
  | _ => false

/-- The instructions that may write the Stack Pointer (R24). -/
def writesSp : Instr → Bool
  | .push _ | .pushPsw | .pop _ | .popPsw | .inxSp | .dcxSp | .sphl | .lxiSp _ => true
  | _ => false

/-- Two states that differ in nothing but the Auxiliary Carry Bit. -/
def SameButAux (s t : State) : Prop :=
  t.regs = s.regs ∧ t.flags = { s.flags with ac := t.flags.ac } ∧ t.sp = s.sp ∧ t.pc = s.pc ∧ t.mem = s.mem ∧ t.cfg = s.cfg

end Sys2Proof.Claims

open Sys2Proof Sys2Proof.Machine Sys2Proof.Claims

/-! ### Encoding -/

/-- Decoding the encoding of any instruction gives it back, whatever bytes follow (R70, R86). -/
def Obligations.DecodeOfEncodeGivesInstruction : Prop :=
  ∀ (i : Instr) (rest : List Byte), i.wellFormed = true → decode (encode i ++ rest) = .instr i rest

/-- Whatever decodes is well-formed and is exactly its own encoding: no two byte strings mean the same instruction and no bit
is ignored (R81, R86). -/
def Obligations.DecodedBytesAreTheEncoding : Prop :=
  ∀ (bs rest : List Byte) (i : Instr), decode bs = .instr i rest → i.wellFormed = true ∧ bs = encode i ++ rest

/-- The decoder rejects a first byte exactly when it is one of the 69 of R82. Refusing them is the spec's decision D4
(log entry 11). -/
def Obligations.RejectedFirstBytesAreThe69 : Prop :=
  ∀ (b1 : Byte) (rest : List Byte), decode (b1 :: rest) = .rejected (.unspecified b1) ↔ b1 ∈ unspecifiedBytes

/-- One word of each family, written out from its encoding; then every byte of the formats F1 (R71), RP (R72) and AS (R74).
XCHG's byte is general knowledge (log entry 19); DAD's and CMP's patterns are derived by the spec (log entry 20); pair code 11
in DAD, INX and DCX is D6 (log entry 15). -/
def Obligations.SampleWordsDecode : Prop :=
  (decode [0b11000101#8] = .instr (.push .bc) [] ∧ decode [0b00001111#8] = .instr .rrc [] ∧
    decode [0b01111011#8] = .instr (.mov .a .e) [] ∧ decode [0b10010111#8] = .instr (.sub .a) [] ∧
    decode [0x22#8, 0x45#8, 0x75#8] = .instr (.shld 0x7545#16) [] ∧
    decode [0x11#8, 0x7F#8, 0x7E#8] = .instr (.lxi .de 0x7E7F#16) [] ∧
    decode [0xC3#8, 0xB8#8, 0xD6#8] = .instr (.jmp 0xD6B8#16) []) ∧
  (decode [0b11101011#8] = .instr .xchg [] ∧ decode [0b11100011#8] = .instr .xthl [] ∧
    decode [0b11111001#8] = .instr .sphl [] ∧ decode [0b11101001#8] = .instr .pchl [] ∧
    decode [0b00000111#8] = .instr .rlc [] ∧ decode [0b00001111#8] = .instr .rrc [] ∧
    decode [0b00010111#8] = .instr .ral [] ∧ decode [0b00011111#8] = .instr .rar []) ∧
  (∀ p ∈ pairCodes,
    decode [0b11#2 ++ p.1 ++ 0b0101#4] = .instr (.push p.2) [] ∧ decode [0b11#2 ++ p.1 ++ 0b0001#4] = .instr (.pop p.2) [] ∧
    decode [0b00#2 ++ p.1 ++ 0b0011#4] = .instr (.inx p.2) [] ∧ decode [0b00#2 ++ p.1 ++ 0b1011#4] = .instr (.dcx p.2) [] ∧
    decode [0b00#2 ++ p.1 ++ 0b1001#4] = .instr (.dad p.2) []) ∧
  (decode [0b11110101#8] = .instr .pushPsw [] ∧ decode [0b11110001#8] = .instr .popPsw [] ∧
    decode [0b00110011#8] = .instr .inxSp [] ∧ decode [0b00111011#8] = .instr .dcxSp [] ∧
    decode [0b00111001#8] = .instr .dadSp []) ∧
  (∀ p ∈ regCodes,
    decode [0b10000#5 ++ p.1] = .instr (.add p.2) [] ∧ decode [0b10001#5 ++ p.1] = .instr (.adc p.2) [] ∧
    decode [0b10010#5 ++ p.1] = .instr (.sub p.2) [] ∧ decode [0b10011#5 ++ p.1] = .instr (.sbb p.2) [] ∧
    decode [0b10100#5 ++ p.1] = .instr (.ana p.2) [] ∧ decode [0b10101#5 ++ p.1] = .instr (.xra p.2) [] ∧
    decode [0b10110#5 ++ p.1] = .instr (.ora p.2) [] ∧ decode [0b10111#5 ++ p.1] = .instr (.cmp p.2) [])

/-- Formats DS (R73, with the byte that is no MOV), X (R75, with the four bytes of bit 5 = 1 that are no STAX or LDAX), D8
(R76), I8 (R77), A16 (R78, with the five values of ccc that have no meaning) and RPI (R79), every field at every value. -/
def Obligations.FormatsWithFieldsDecode : Prop :=
  (∀ p ∈ regCodes, ∀ q ∈ regCodes, ¬ (p.2 = .m ∧ q.2 = .m) →
    decode [0b01#2 ++ p.1 ++ q.1] = .instr (.mov p.2 q.2) []) ∧
  (∀ (dst src : Reg8) (rest : List Byte), decode [0b01110110#8] ≠ .instr (.mov dst src) rest) ∧
  (∀ x : BitVec 1,
    decode [0b000#3 ++ x ++ 0b0010#4] = .instr (.stax (if x = 0#1 then .bc else .de)) [] ∧
    decode [0b000#3 ++ x ++ 0b1010#4] = .instr (.ldax (if x = 0#1 then .bc else .de)) []) ∧
  (∀ d : Byte,
    (∀ p ∈ regCodes, decode [0b00#2 ++ p.1 ++ 0b110#3, d] = .instr (.mvi p.2 d) []) ∧
    decode [0b11000110#8, d] = .instr (.adi d) [] ∧ decode [0b11001110#8, d] = .instr (.aci d) [] ∧
    decode [0b11010110#8, d] = .instr (.sui d) [] ∧ decode [0b11011110#8, d] = .instr (.sbi d) [] ∧
    decode [0b11100110#8, d] = .instr (.ani d) [] ∧ decode [0b11101110#8, d] = .instr (.xri d) [] ∧
    decode [0b11110110#8, d] = .instr (.ori d) [] ∧ decode [0b11111110#8, d] = .instr (.cpi d) []) ∧
  (∀ lo hi : Byte,
    decode [0b00110010#8, lo, hi] = .instr (.sta (hi ++ lo)) [] ∧ decode [0b00111010#8, lo, hi] = .instr (.lda (hi ++ lo)) [] ∧
    decode [0b00100010#8, lo, hi] = .instr (.shld (hi ++ lo)) [] ∧
    decode [0b00101010#8, lo, hi] = .instr (.lhld (hi ++ lo)) [] ∧
    decode [0b11000011#8, lo, hi] = .instr (.jmp (hi ++ lo)) [] ∧ decode [0b11011010#8, lo, hi] = .instr (.jc (hi ++ lo)) [] ∧
    decode [0b11010010#8, lo, hi] = .instr (.jnc (hi ++ lo)) [] ∧ decode [0b11001010#8, lo, hi] = .instr (.jz (hi ++ lo)) [] ∧
    (∀ (ccc : BitVec 3) (i : Instr) (rest : List Byte), ccc ≠ 0b011#3 → ccc ≠ 0b010#3 → ccc ≠ 0b001#3 →
      decode [0b11#2 ++ ccc ++ 0b010#3, lo, hi] ≠ .instr i rest) ∧
    (∀ p ∈ pairCodes, decode [0b00#2 ++ p.1 ++ 0b0001#4, lo, hi] = .instr (.lxi p.2 (hi ++ lo)) []) ∧
    decode [0b00110001#8, lo, hi] = .instr (.lxiSp (hi ++ lo)) [])

/-! ### Steps -/

/-- A step runs the decoded instruction: before END_PC, where the bytes at `pc` decode to `i` and the bytes of `i` are
present, `step` is `exec i`, with nothing added (R226). -/
def Obligations.StepRunsTheDecodedInstruction : Prop :=
  ∀ (s : State) (i : Instr) (rest : List Byte), s.cfg.endPc ≠ some s.pc →
    decode [s.mem.read s.pc, s.mem.read (s.pc + 1#16), s.mem.read (s.pc + 2#16)] = .instr i rest →
    (∀ k, k < (encode i).length → memPresent s.cfg (s.pc + BitVec.ofNat 16 k) = true) →
    step s = exec i s

/-- A step whose instruction has a byte outside `MEM_MAP` is stuck at the first such byte, a conditional jump not taken
included (R56, R190; D2, log entry 24). Which byte the model names is its own choice (log entry 27). -/
def Obligations.StepIsStuckOnAnAbsentInstructionByte : Prop :=
  ∀ s : State, s.cfg.endPc ≠ some s.pc →
    (memPresent s.cfg s.pc = false → step s = .fault (.stuckFetch s.pc)) ∧
    (∀ n k, memPresent s.cfg s.pc = true → instrLength (s.mem.read s.pc) = some n → k < n →
      (∀ j, j < k → memPresent s.cfg (s.pc + BitVec.ofNat 16 j) = true) →
      memPresent s.cfg (s.pc + BitVec.ofNat 16 k) = false →
      step s = .fault (.stuckFetch (s.pc + BitVec.ofNat 16 k)))

/-- A step on one of the 69 bytes of R82 is refused: never a no-op, never a fault (D4, log entry 11). -/
def Obligations.StepRefusesUnspecifiedBytes : Prop :=
  ∀ s : State, s.cfg.endPc ≠ some s.pc → memPresent s.cfg s.pc = true → s.mem.read s.pc ∈ unspecifiedBytes →
    step s = .refused (.unspecifiedByte (s.mem.read s.pc))

/-- At END_PC the run is over, whatever stands there (R224; the form of the answer is the model's choice, log entry 4). -/
def Obligations.NoStepAtEndPc : Prop :=
  ∀ s : State, s.final → step s = .fault .runOver

/-- An instruction placed by `withFetchWord` is the one the next step runs (log entry 8). -/
def Obligations.PlacedWordIsRunNext : Prop :=
  ∀ (s : State) (nbits w : Nat) (i : Instr), decodeTableWord nbits w = some i → s.cfg.endPc ≠ some s.pc →
    (∀ k, k < (encode i).length → memPresent s.cfg (s.pc + BitVec.ofNat 16 k) = true) →
    step (s.withFetchWord nbits w) = exec i (s.withFetchWord nbits w)

/-! ### Reset -/

/-- Reset is a launch state (R220). The value 0x0000 of START_PC (log entry 5), the zero registers and status bits (log entry
6), the empty memory (log entry 7) and the full MEM_MAP (log entry 2) are the model's choices, not the spec's. -/
def Obligations.ResetIsALaunchState : Prop :=
  State.reset.launch ∧ State.reset.cfg = Config.standard ∧ State.reset.pc = 0x0000#16 ∧ State.reset.sp = 0x0000#16 ∧
    State.reset.regs = { a := 0#8, b := 0#8, c := 0#8, d := 0#8, e := 0#8, h := 0#8, l := 0#8 } ∧
    State.reset.flags = { cy := false, ac := false, s := false, z := false, p := false } ∧
    (∀ a : Word, State.reset.mem.read a = 0#8) ∧ fullMemory State.reset.cfg

/-- Reset meets the invariant of `StepKeepsMemoryCanonicalAndParameters`. -/
def Obligations.ResetMemoryIsCanonical : Prop := State.reset.mem.wf

/-! ### The whole machine -/

/-- Every step keeps memory in its canonical form (the model's own, log entry 7) and leaves the parameters alone (R34). -/
def Obligations.StepKeepsMemoryCanonicalAndParameters : Prop :=
  ∀ s t : State, s.mem.wf → step s = .next t → t.mem.wf ∧ t.cfg = s.cfg

/-- No run changes a byte at an address that `MEM_MAP` does not mark writable (R56, R64). -/
def Obligations.NoRunChangesUnwritableMemory : Prop :=
  ∀ s t : State, Reaches s t →
    t.cfg = s.cfg ∧ ∀ a : Word, memWritable s.cfg a = false → t.mem.read a = s.mem.read a

/-- Every instruction that completes leaves every byte alone but those it stores to (R64). -/
def Obligations.EveryStoreStaysInItsBytes : Prop :=
  ∀ (i : Instr) (s t : State), exec i s = .next t → SameMemoryBut s t (storedAt i s)

/-- Which status bits each instruction may write (R31). That the logical instructions keep AC is under the default of
`LOGIC_AC` (D10, log entry 18); that CMP writes AC is the spec's resolution C5 (log entry 21). -/
def Obligations.StatusBitsAreWrittenAsListed : Prop :=
  ∀ (i : Instr) (s t : State), exec i s = .next t →
    (statusWritten i = .none → t.flags = s.flags) ∧
    (statusWritten i = .carry → t.flags = { s.flags with cy := t.flags.cy }) ∧
    (statusWritten i = .allButAux → t.flags.cy = false ∧ (s.cfg.logicAc = .unaffected → t.flags.ac = s.flags.ac))

/-- Every instruction but the branches moves `pc` past its own bytes, modulo 2^16 (R11, R25; D1 and D2, log entries 23, 24). -/
def Obligations.PcAdvancesByTheLength : Prop :=
  ∀ (i : Instr) (s t : State), isBranch i = false → exec i s = .next t →
    t.pc = s.pc + BitVec.ofNat 16 (encode i).length

/-- The Stack Pointer changes only in the instructions R24 names (pair code 11 of INX and DCX: D6, log entry 15). -/
def Obligations.StackPointerWriters : Prop :=
  ∀ (i : Instr) (s t : State), writesSp i = false → exec i s = .next t → t.sp = s.sp

/-- No instruction but PUSH PSW reads the Auxiliary Carry Bit: change it before, and nothing but that bit differs after (R30). -/
def Obligations.OnlyPushPswReadsAux : Prop :=
  ∀ (i : Instr) (s s2 t : State), i ≠ .pushPsw → SameButAux s s2 → exec i s = .next t →
    ∃ t2, exec i s2 = .next t2 ∧ SameButAux t t2

/-- With all of memory present and writable, and pair code 11 the Stack Pointer, every instruction completes from every
state (R56, R200; `RP11_ARITH = sp` is D6, log entry 15). -/
def Obligations.EveryInstructionCompletesOnFullMemory : Prop :=
  ∀ (i : Instr) (s : State), i.wellFormed = true → fullMemory s.cfg → s.cfg.rp11Arith = .sp → ∃ t, exec i s = .next t

/-- With all of memory present and writable, a step goes on from every state but at END_PC and at one of the 69 bytes
(R226; log entries 2, 11, 15). -/
def Obligations.OnlyUnspecifiedBytesStopFullMemory : Prop :=
  ∀ s : State, fullMemory s.cfg → s.cfg.rp11Arith = .sp →
    ((∃ t, step s = .next t) ↔ ¬ s.final ∧ s.mem.read s.pc ∉ unspecifiedBytes)

/-! ### Register pairs and the stack -/

/-- The pairs are views of the registers (R22): the first register is the most significant half, and writing the second
register changes the pair. -/
def Obligations.PairsAreViewsOfTheRegisters : Prop :=
  ∀ s : State,
    (pairValue s .bc).toNat = s.regs.b.toNat * 256 + s.regs.c.toNat ∧
    (pairValue s .de).toNat = s.regs.d.toNat * 256 + s.regs.e.toNat ∧
    (pairValue s .hl).toNat = s.regs.h.toNat * 256 + s.regs.l.toNat ∧
    ∀ v : Byte,
      (pairValue (s.withRegs { s.regs with c := v }) .bc).toNat = s.regs.b.toNat * 256 + v.toNat ∧
      (pairValue (s.withRegs { s.regs with b := v }) .bc).toNat = v.toNat * 256 + s.regs.c.toNat ∧
      (pairValue (s.withRegs { s.regs with e := v }) .de).toNat = s.regs.d.toNat * 256 + v.toNat ∧
      (pairValue (s.withRegs { s.regs with d := v }) .de).toNat = v.toNat * 256 + s.regs.e.toNat ∧
      (pairValue (s.withRegs { s.regs with l := v }) .hl).toNat = s.regs.h.toNat * 256 + v.toNat ∧
      (pairValue (s.withRegs { s.regs with h := v }) .hl).toNat = v.toNat * 256 + s.regs.l.toNat

/-- PUSH rp (R100): the first register to `sp-1`, the second to `sp-2`, `sp` down by two, modulo 2^16 (D1, log entry 23). -/
def Obligations.PushStoresThePair : Prop :=
  ∀ (rp : Pair) (s : State), memWritable s.cfg (s.sp - 1#16) = true → memWritable s.cfg (s.sp - 2#16) = true →
    Stores (.push rp) s [(s.sp - 1#16, (pairHalves s rp).1), (s.sp - 2#16, (pairHalves s rp).2)] (s.sp - 2#16) 1

/-- PUSH PSW (R101) under both values of `PSW_FLAGS_HIGH` (D5, log entry 17). The status byte is said bit by bit (R27). -/
def Obligations.PushPswStoresStatusAndA : Prop :=
  ∀ s : State, memWritable s.cfg (s.sp - 1#16) = true → memWritable s.cfg (s.sp - 2#16) = true →
    ∃ f : Byte,
      (f.getLsbD 7 = s.flags.s ∧ f.getLsbD 6 = s.flags.z ∧ f.getLsbD 5 = false ∧ f.getLsbD 4 = s.flags.ac ∧
        f.getLsbD 3 = false ∧ f.getLsbD 2 = s.flags.p ∧ f.getLsbD 1 = true ∧ f.getLsbD 0 = s.flags.cy) ∧
      (s.cfg.pswFlagsHigh = true →
        Stores .pushPsw s [(s.sp - 1#16, f), (s.sp - 2#16, s.regs.a)] (s.sp - 2#16) 1) ∧
      (s.cfg.pswFlagsHigh = false →
        Stores .pushPsw s [(s.sp - 1#16, s.regs.a), (s.sp - 2#16, f)] (s.sp - 2#16) 1)

/-- POP rp (R102): the second register from `sp`, the first from `sp+1`, `sp` up by two, modulo 2^16 (D1, log entry 23). -/
def Obligations.PopLoadsThePair : Prop :=
  ∀ (rp : Pair) (s : State), memPresent s.cfg s.sp = true → memPresent s.cfg (s.sp + 1#16) = true →
    Loads (.pop rp) s (regsPaired s rp (s.mem.read (s.sp + 1#16)) (s.mem.read s.sp)) (s.sp + 2#16) 1

/-- POP PSW (R103) under both values of `PSW_FLAGS_HIGH` (D5, log entry 17); bits 5, 3 and 1 are dropped (D8, log entry 26). -/
def Obligations.PopPswLoadsStatusAndA : Prop :=
  ∀ s : State, memPresent s.cfg s.sp = true → memPresent s.cfg (s.sp + 1#16) = true →
    ∃ t f, exec .popPsw s = .next t ∧ SameRegsButA s t ∧ t.sp = s.sp + 2#16 ∧ t.pc = s.pc + 1#16 ∧ t.cfg = s.cfg ∧
      SameMemory s t ∧
      (s.cfg.pswFlagsHigh = true → t.regs.a = s.mem.read s.sp ∧ f = s.mem.read (s.sp + 1#16)) ∧
      (s.cfg.pswFlagsHigh = false → t.regs.a = s.mem.read (s.sp + 1#16) ∧ f = s.mem.read s.sp) ∧
      t.flags.s = f.getLsbD 7 ∧ t.flags.z = f.getLsbD 6 ∧ t.flags.ac = f.getLsbD 4 ∧ t.flags.p = f.getLsbD 2 ∧
      t.flags.cy = f.getLsbD 0

/-- PUSH PSW then POP PSW restores A, the five status bits and `sp`, under either value of `PSW_FLAGS_HIGH` (R101). -/
def Obligations.PopPswUndoesPushPsw : Prop :=
  ∀ s : State, memWritable s.cfg (s.sp - 1#16) = true → memWritable s.cfg (s.sp - 2#16) = true →
    ∃ t u, exec .pushPsw s = .next t ∧ exec .popPsw t = .next u ∧
      u.regs = s.regs ∧ u.flags = s.flags ∧ u.sp = s.sp ∧ u.pc = s.pc + 2#16 ∧ u.cfg = s.cfg ∧
      SameMemoryBut s u [s.sp - 1#16, s.sp - 2#16]

/-- PUSH of one pair then POP of another copies the first into the second and restores `sp` (R100, R102). -/
def Obligations.PopOfAPushedPairCopiesIt : Prop :=
  ∀ (src dst : Pair) (s : State), memWritable s.cfg (s.sp - 1#16) = true → memWritable s.cfg (s.sp - 2#16) = true →
    ∃ t u, exec (.push src) s = .next t ∧ exec (.pop dst) t = .next u ∧
      u.regs = regsPaired s dst (pairHalves s src).1 (pairHalves s src).2 ∧ u.flags = s.flags ∧ u.sp = s.sp

/-- DAD (R104): HL takes the sum modulo 2^16, Carry says whether it exceeds 0xFFFF, nothing else changes. With pair code 11
the addend is `sp` under `RP11_ARITH = sp` (D6, log entry 15). -/
def Obligations.DadAddsIntoHl : Prop :=
  ∀ (s : State),
    (∀ rp : Pair, ∃ t, exec (.dad rp) s = .next t ∧ t.regs = { s.regs with h := t.regs.h, l := t.regs.l } ∧
      (pairValue t .hl).toNat = ((pairValue s .hl).toNat + (pairValue s rp).toNat) % 65536 ∧
      t.flags = { s.flags with cy := decide (65536 ≤ (pairValue s .hl).toNat + (pairValue s rp).toNat) } ∧
      OnlyRegsAndFlags s t 1) ∧
    (s.cfg.rp11Arith = .sp → ∃ t, exec .dadSp s = .next t ∧ t.regs = { s.regs with h := t.regs.h, l := t.regs.l } ∧
      (pairValue t .hl).toNat = ((pairValue s .hl).toNat + s.sp.toNat) % 65536 ∧
      t.flags = { s.flags with cy := decide (65536 ≤ (pairValue s .hl).toNat + s.sp.toNat) } ∧
      OnlyRegsAndFlags s t 1)

/-- INX and DCX of a pair (R105, R106): one more or one less modulo 2^16 (D1, log entry 23), no status bit. -/
def Obligations.InxAndDcxCountInAPair : Prop :=
  ∀ (rp : Pair) (s : State), ∃ hi lo hi2 lo2,
    Loads (.inx rp) s (regsPaired s rp hi lo) s.sp 1 ∧
    hi.toNat * 256 + lo.toNat = ((pairHalves s rp).1.toNat * 256 + (pairHalves s rp).2.toNat + 1) % 65536 ∧
    Loads (.dcx rp) s (regsPaired s rp hi2 lo2) s.sp 1 ∧
    hi2.toNat * 256 + lo2.toNat = ((pairHalves s rp).1.toNat * 256 + (pairHalves s rp).2.toNat + 65535) % 65536

/-- INX SP and DCX SP under `RP11_ARITH = sp` (R105, R106; D6, log entry 15): `sp` one more or one less modulo 2^16. -/
def Obligations.InxAndDcxCountInSp : Prop :=
  ∀ s : State, s.cfg.rp11Arith = .sp → ∃ up down,
    Loads .inxSp s s.regs up 1 ∧ up.toNat = (s.sp.toNat + 1) % 65536 ∧
    Loads .dcxSp s s.regs down 1 ∧ down.toNat = (s.sp.toNat + 65535) % 65536

/-- DAD SP, INX SP and DCX SP are refused under `RP11_ARITH = refuse` (R12, R226; log entries 15, 30). -/
def Obligations.PairCode11IsRefusedWhenConfigured : Prop :=
  ∀ s : State, s.cfg.rp11Arith = .refuse →
    exec .dadSp s = .refused (.rp11Refused 0x39#8) ∧ exec .inxSp s = .refused (.rp11Refused 0x33#8) ∧
    exec .dcxSp s = .refused (.rp11Refused 0x3B#8)

/-- XCHG (R107): H and D, L and E change places; nothing else changes. -/
def Obligations.XchgExchangesHlAndDe : Prop :=
  ∀ s : State,
    Loads .xchg s { s.regs with h := s.regs.d, l := s.regs.e, d := s.regs.h, e := s.regs.l } s.sp 1

/-- XTHL (R108): L and the byte at `sp`, H and the byte at `sp+1` change places; `sp` does not change. -/
def Obligations.XthlExchangesHlAndStack : Prop :=
  ∀ s : State, memPresent s.cfg s.sp = true → memPresent s.cfg (s.sp + 1#16) = true →
    memWritable s.cfg s.sp = true → memWritable s.cfg (s.sp + 1#16) = true →
    ∃ t, exec .xthl s = .next t ∧
      t.regs = { s.regs with h := s.mem.read (s.sp + 1#16), l := s.mem.read s.sp } ∧
      t.mem.read s.sp = s.regs.l ∧ t.mem.read (s.sp + 1#16) = s.regs.h ∧ SameMemoryBut s t [s.sp, s.sp + 1#16] ∧
      t.flags = s.flags ∧ t.sp = s.sp ∧ t.pc = s.pc + 1#16 ∧ t.cfg = s.cfg

/-- SPHL (R109): `sp` takes H as its high and L as its low half; no status bit changes (D13, log entry 22). -/
def Obligations.SphlLoadsSp : Prop :=
  ∀ s : State, ∃ v : Word, v.toNat = s.regs.h.toNat * 256 + s.regs.l.toNat ∧ Loads .sphl s s.regs v 1

/-! ### Rotates -/

/-- RLC (R120) and RRC (R121), with their encodings. -/
def Obligations.RlcAndRrcRotateTheAccumulator : Prop :=
  decode [0b00000111#8] = .instr .rlc [] ∧ decode [0b00001111#8] = .instr .rrc [] ∧
  ∀ s : State,
    Rotates .rlc s (fun k => s.regs.a.getLsbD ((k + 7) % 8)) (s.regs.a.getLsbD 7) ∧
    Rotates .rrc s (fun k => s.regs.a.getLsbD ((k + 1) % 8)) (s.regs.a.getLsbD 0)

/-- RAL (R122) and RAR (R123), with their encodings: a 9-bit rotation through Carry. -/
def Obligations.RalAndRarRotateThroughCarry : Prop :=
  decode [0b00010111#8] = .instr .ral [] ∧ decode [0b00011111#8] = .instr .rar [] ∧
  ∀ s : State,
    Rotates .ral s (fun k => if k = 0 then s.flags.cy else s.regs.a.getLsbD (k - 1)) (s.regs.a.getLsbD 7) ∧
    Rotates .rar s (fun k => if k = 7 then s.flags.cy else s.regs.a.getLsbD (k + 1)) (s.regs.a.getLsbD 0)

/-- RRC undoes RLC on A, and RLC undoes RRC; RAR undoes RAL on A and Carry, and RAL undoes RAR (R121, R123). -/
def Obligations.OppositeRotationsCancel : Prop :=
  ∀ s : State,
    (∃ t u, exec .rlc s = .next t ∧ exec .rrc t = .next u ∧ u.regs = s.regs) ∧
    (∃ t u, exec .rrc s = .next t ∧ exec .rlc t = .next u ∧ u.regs = s.regs) ∧
    (∃ t u, exec .ral s = .next t ∧ exec .rar t = .next u ∧ u.regs = s.regs ∧ u.flags = s.flags) ∧
    (∃ t u, exec .rar s = .next t ∧ exec .ral t = .next u ∧ u.regs = s.regs ∧ u.flags = s.flags)

/-! ### Data transfer -/

/-- MOV (R130), all three shapes: a register or M into a register, and a register into M. M is log entry 12. -/
def Obligations.MovMovesOneByte : Prop :=
  ∀ (dst src : Reg8) (s : State),
    (dst ≠ .m → Readable s src → Loads (.mov dst src) s (regsWritten s dst (operandByte s src)) s.sp 1) ∧
    (dst = .m → src ≠ .m → Writable s .m → Stores (.mov dst src) s [(pairValue s .hl, operandByte s src)] s.sp 1)

/-- STAX (R131), with its two encodings. -/
def Obligations.StaxStoresTheAccumulator : Prop :=
  decode [0b00000010#8] = .instr (.stax .bc) [] ∧ decode [0b00010010#8] = .instr (.stax .de) [] ∧
  ∀ s : State,
    (memWritable s.cfg (pairValue s .bc) = true → Stores (.stax .bc) s [(pairValue s .bc, s.regs.a)] s.sp 1) ∧
    (memWritable s.cfg (pairValue s .de) = true → Stores (.stax .de) s [(pairValue s .de, s.regs.a)] s.sp 1)

/-- LDAX (R132), with its two encodings. -/
def Obligations.LdaxLoadsTheAccumulator : Prop :=
  decode [0b00001010#8] = .instr (.ldax .bc) [] ∧ decode [0b00011010#8] = .instr (.ldax .de) [] ∧
  ∀ s : State,
    (memPresent s.cfg (pairValue s .bc) = true →
      Loads (.ldax .bc) s { s.regs with a := s.mem.read (pairValue s .bc) } s.sp 1) ∧
    (memPresent s.cfg (pairValue s .de) = true →
      Loads (.ldax .de) s { s.regs with a := s.mem.read (pairValue s .de) } s.sp 1)

/-! ### Accumulator arithmetic and logic -/

/-- ADD, ADC (R140, R141) with every operand, ADI, ACI (R172, R173). Sign and AC: log entry 13; Parity: log entry 32. -/
def Obligations.AdditionsInIntegers : Prop :=
  ∀ s : State,
    (∀ r : Reg8, Readable s r →
      Adds (.add r) s (operandByte s r) false 1 ∧ Adds (.adc r) s (operandByte s r) s.flags.cy 1) ∧
    (∀ d : Byte, Adds (.adi d) s d false 2 ∧ Adds (.aci d) s d s.flags.cy 2)

/-- SUB, SBB (R142, R143) with every operand, SUI, SBI (R174, R175): Carry is the borrow, and operand plus Carry is not cut
to 8 bits (D12, log entry 25). AC is `AUX_SUB` (log entry 14), for every value of the free value. -/
def Obligations.SubtractionsInIntegers : Prop :=
  ∀ s : State,
    (∀ r : Reg8, Readable s r →
      Subtracts (.sub r) s (operandByte s r) false 1 ∧ Subtracts (.sbb r) s (operandByte s r) s.flags.cy 1) ∧
    (∀ d : Byte, Subtracts (.sui d) s d false 2 ∧ Subtracts (.sbi d) s d s.flags.cy 2)

/-- CMP (R147) with every operand and CPI (R179). That CMP writes AC is the spec's resolution C5 (log entry 21). -/
def Obligations.ComparesLeaveTheRegisters : Prop :=
  ∀ s : State,
    (∀ r : Reg8, Readable s r → Compares (.cmp r) s (operandByte s r) 1) ∧
    (∀ d : Byte, Compares (.cpi d) s d 2)

/-- ANA, XRA, ORA (R144 to R146) with every operand, ANI, XRI, ORI (R176 to R178), under both values of `LOGIC_AC`
(D10, log entry 18). -/
def Obligations.LogicBitByBit : Prop :=
  ∀ s : State,
    (∀ r : Reg8, Readable s r →
      Combines and (.ana r) s (operandByte s r) (s.regs.a.getLsbD 3 || (operandByte s r).getLsbD 3) 1 ∧
      Combines xor (.xra r) s (operandByte s r) false 1 ∧
      Combines or (.ora r) s (operandByte s r) false 1) ∧
    (∀ d : Byte,
      Combines and (.ani d) s d (s.regs.a.getLsbD 3 || d.getLsbD 3) 2 ∧
      Combines xor (.xri d) s d false 2 ∧
      Combines or (.ori d) s d false 2)

/-- The recommended default of `AUX_SUB` (R10, D9, log entry 14): AC is 1 exactly when the low nibbles need no borrow. -/
def Obligations.RecommendedAuxSubIsNoNibbleBorrow : Prop :=
  ∀ (a v : Byte) (c : Bool),
    auxSub .carryOutOfBit3 a v c = decide (v.toNat % 16 + c.toNat ≤ a.toNat % 16)

/-- `AUX_SUB` depends on its three arguments alone (R10, R226; D9, log entry 14): any two of SUB, SBB, SUI, SBI, CMP and CPI,
from any two states with one `AUX_SUB`, that take the same operand and the same incoming borrow from the same accumulator
leave the same AC, whatever else differs. -/
def Obligations.AuxSubDependsOnTheOperandsAlone : Prop :=
  ∀ (i j : Instr) (s s2 t t2 : State) (v : Byte) (c : Bool),
    subtrahend i s = some (v, c) → subtrahend j s2 = some (v, c) →
    s2.cfg.auxSub = s.cfg.auxSub → s2.regs.a = s.regs.a →
    exec i s = .next t → exec j s2 = .next t2 → t2.flags.ac = t.flags.ac

/-- Two-byte arithmetic through Carry: ADI then ACI on the halves adds 16 bits, SUI then SBI subtracts 16 bits, with the last
Carry the carry or the borrow of the whole (R9, R10; D12, log entry 25). -/
def Obligations.CarryChainsAreSixteenBit : Prop :=
  ∀ (s : State) (hi lo vhi vlo : Byte), s.regs.a = lo →
    (∃ t u, exec (.adi vlo) s = .next t ∧ exec (.aci vhi) (t.withA hi) = .next u ∧
      u.regs.a.toNat * 256 + t.regs.a.toNat = (hi.toNat * 256 + lo.toNat + (vhi.toNat * 256 + vlo.toNat)) % 65536 ∧
      u.flags.cy = decide (65536 ≤ hi.toNat * 256 + lo.toNat + (vhi.toNat * 256 + vlo.toNat))) ∧
    (∃ t u, exec (.sui vlo) s = .next t ∧ exec (.sbi vhi) (t.withA hi) = .next u ∧
      (u.regs.a.toNat * 256 + t.regs.a.toNat : Int) =
        ((hi.toNat * 256 + lo.toNat : Int) - (vhi.toNat * 256 + vlo.toNat)) % 65536 ∧
      u.flags.cy = decide (hi.toNat * 256 + lo.toNat < vhi.toNat * 256 + vlo.toNat))

/-- The Status Bit Register as a byte (R27): writing it and reading it back restores the five bits, and reading any byte back
keeps bits 7, 6, 4, 2 and 0 and gives 0, 0, 1 in bits 5, 3 and 1 (D8, log entry 26). -/
def Obligations.StatusByteKeepsFiveBits : Prop :=
  (∀ f : Flags, setFlags (flagsByte f) = f) ∧
  (∀ v : Byte, flagsByte (setFlags v) = (v &&& 0b11010111#8) ||| 0b00000010#8)

/-! ### Direct addressing -/

/-- STA (R160), with its encoding at every address. -/
def Obligations.StaStoresTheAccumulator : Prop :=
  (∀ lo hi : Byte, decode [0b00110010#8, lo, hi] = .instr (.sta (hi ++ lo)) []) ∧
  ∀ (addr : Word) (s : State), memWritable s.cfg addr = true → Stores (.sta addr) s [(addr, s.regs.a)] s.sp 3

/-- LDA (R161), with its encoding at every address. -/
def Obligations.LdaLoadsTheAccumulator : Prop :=
  (∀ lo hi : Byte, decode [0b00111010#8, lo, hi] = .instr (.lda (hi ++ lo)) []) ∧
  ∀ (addr : Word) (s : State), memPresent s.cfg addr = true →
    Loads (.lda addr) s { s.regs with a := s.mem.read addr } s.sp 3

/-- SHLD (R162): L at the address, H at the next higher one, modulo 2^16 (D1, log entry 23). -/
def Obligations.ShldStoresLThenH : Prop :=
  ∀ (addr : Word) (s : State), memWritable s.cfg addr = true → memWritable s.cfg (addr + 1#16) = true →
    Stores (.shld addr) s [(addr, s.regs.l), (addr + 1#16, s.regs.h)] s.sp 3

/-- LHLD (R163): L from the address, H from the next higher one, modulo 2^16 (D1, log entry 23). -/
def Obligations.LhldLoadsLThenH : Prop :=
  ∀ (addr : Word) (s : State), memPresent s.cfg addr = true → memPresent s.cfg (addr + 1#16) = true →
    Loads (.lhld addr) s { s.regs with l := s.mem.read addr, h := s.mem.read (addr + 1#16) } s.sp 3

/-! ### Immediates -/

/-- LXI (R170; C1): Byte 2 to the second register, Byte 3 to the first. LXI SP: Byte 3 the high half, or the other way under
`LXI_SP_SWAPPED` (C2, D7, log entry 16). -/
def Obligations.LxiLoadsSixteenBits : Prop :=
  ∀ (b2 b3 : Byte) (s : State),
    (∀ rp : Pair, Loads (.lxi rp (b3 ++ b2)) s (regsPaired s rp b3 b2) s.sp 3) ∧
    (s.cfg.lxiSpSwapped = false → Loads (.lxiSp (b3 ++ b2)) s s.regs (b3 ++ b2) 3) ∧
    (s.cfg.lxiSpSwapped = true → Loads (.lxiSp (b3 ++ b2)) s s.regs (b2 ++ b3) 3)

/-- MVI (R171): the data byte into a register, or into M (log entry 12). -/
def Obligations.MviMovesTheDataByte : Prop :=
  ∀ (d : Byte) (s : State),
    (∀ r : Reg8, r ≠ .m → Loads (.mvi r d) s (regsWritten s r d) s.sp 2) ∧
    (Writable s .m → Stores (.mvi .m d) s [(pairValue s .hl, d)] s.sp 2)

/-! ### Branches -/

/-- PCHL (R191) and JMP (R192), with their encodings: unconditional, and only `pc` changes. -/
def Obligations.PchlAndJmpJump : Prop :=
  decode [0b11101001#8] = .instr .pchl [] ∧
  (∀ lo hi : Byte, decode [0b11000011#8, lo, hi] = .instr (.jmp (hi ++ lo)) []) ∧
  ∀ s : State, JumpsTo .pchl s (s.regs.h ++ s.regs.l) ∧ ∀ addr : Word, JumpsTo (.jmp addr) s addr

/-- JC (R193) and JNC (R194), with their encodings: to the address when Carry is 1, or 0; else past the third byte. -/
def Obligations.JcAndJncTestCarry : Prop :=
  (∀ lo hi : Byte, decode [0b11011010#8, lo, hi] = .instr (.jc (hi ++ lo)) [] ∧
    decode [0b11010010#8, lo, hi] = .instr (.jnc (hi ++ lo)) []) ∧
  ∀ (addr : Word) (s : State),
    (s.flags.cy = true → JumpsTo (.jc addr) s addr ∧ JumpsTo (.jnc addr) s (s.pc + 3#16)) ∧
    (s.flags.cy = false → JumpsTo (.jc addr) s (s.pc + 3#16) ∧ JumpsTo (.jnc addr) s addr)

/-- JZ (R195): to the address when Zero is 1, else past the third byte. The not-taken half and the untouched status bits are
the spec's inference (log entry 22). -/
def Obligations.JzTestsZero : Prop :=
  ∀ (addr : Word) (s : State),
    (s.flags.z = true → JumpsTo (.jz addr) s addr) ∧ (s.flags.z = false → JumpsTo (.jz addr) s (s.pc + 3#16))

/-! ### Stuck -/

/-- A form that reads memory is stuck where the byte is absent (R56; D3, log entry 3). -/
def Obligations.ReadsOfAbsentMemoryAreStuck : Prop :=
  ∀ s : State,
    (memPresent s.cfg (pairValue s .hl) = false →
      (∀ dst : Reg8, dst ≠ .m → StuckRead (exec (.mov dst .m) s)) ∧
      StuckRead (exec (.add .m) s) ∧ StuckRead (exec (.adc .m) s) ∧ StuckRead (exec (.sub .m) s) ∧
      StuckRead (exec (.sbb .m) s) ∧ StuckRead (exec (.ana .m) s) ∧ StuckRead (exec (.xra .m) s) ∧
      StuckRead (exec (.ora .m) s) ∧ StuckRead (exec (.cmp .m) s)) ∧
    (∀ x : XPair, memPresent s.cfg (xValue s x) = false → StuckRead (exec (.ldax x) s)) ∧
    (∀ addr : Word, memPresent s.cfg addr = false → StuckRead (exec (.lda addr) s)) ∧
    (∀ addr : Word, memPresent s.cfg addr = false ∨ memPresent s.cfg (addr + 1#16) = false →
      StuckRead (exec (.lhld addr) s)) ∧
    (memPresent s.cfg s.sp = false ∨ memPresent s.cfg (s.sp + 1#16) = false →
      (∀ rp : Pair, StuckRead (exec (.pop rp) s)) ∧ StuckRead (exec .popPsw s) ∧ StuckRead (exec .xthl s))

/-- A form that stores is stuck where a byte it stores to is not writable, with no part of it done (R56, R204; D3, D17, log
entries 3, 27). -/
def Obligations.WritesToUnwritableMemoryAreStuck : Prop :=
  ∀ s : State,
    (memWritable s.cfg (pairValue s .hl) = false →
      (∀ src : Reg8, src ≠ .m → StuckWrite (exec (.mov .m src) s)) ∧ ∀ d : Byte, StuckWrite (exec (.mvi .m d) s)) ∧
    (∀ x : XPair, memWritable s.cfg (xValue s x) = false → StuckWrite (exec (.stax x) s)) ∧
    (∀ addr : Word, memWritable s.cfg addr = false → StuckWrite (exec (.sta addr) s)) ∧
    (∀ addr : Word, memWritable s.cfg addr = false ∨ memWritable s.cfg (addr + 1#16) = false →
      StuckWrite (exec (.shld addr) s)) ∧
    (memWritable s.cfg (s.sp - 1#16) = false ∨ memWritable s.cfg (s.sp - 2#16) = false →
      (∀ rp : Pair, StuckWrite (exec (.push rp) s)) ∧ StuckWrite (exec .pushPsw s)) ∧
    (memPresent s.cfg s.sp = true → memPresent s.cfg (s.sp + 1#16) = true →
      (memWritable s.cfg s.sp = false ∨ memWritable s.cfg (s.sp + 1#16) = false) → StuckWrite (exec .xthl s))
end

