-- ==== Sys2Proof/Laws/Bits.lean ====
section
/-! SUPPORT. The two halves of a 16-bit value. -/

namespace Sys2Proof.Machine

@[simp] theorem hiByte_join (hi lo : Byte) : hiByte (join hi lo) = hi := by
  apply BitVec.eq_of_toNat_eq
  simp only [hiByte, join, BitVec.extractLsb'_toNat, BitVec.toNat_append, Nat.shiftLeft_eq, Nat.shiftRight_eq_div_pow]
  rw [← Nat.shiftLeft_eq, ← Nat.shiftLeft_add_eq_or_of_lt lo.isLt, Nat.shiftLeft_eq]
  omega

@[simp] theorem loByte_join (hi lo : Byte) : loByte (join hi lo) = lo := by
  apply BitVec.eq_of_toNat_eq
  simp only [loByte, join, BitVec.extractLsb'_toNat, BitVec.toNat_append, Nat.shiftRight_zero]
  rw [← Nat.shiftLeft_add_eq_or_of_lt lo.isLt, Nat.shiftLeft_eq]
  omega

theorem toNat_join (hi lo : Byte) : (join hi lo).toNat = hi.toNat * 256 + lo.toNat := by
  simp only [join, BitVec.toNat_append]
  rw [← Nat.shiftLeft_add_eq_or_of_lt lo.isLt, Nat.shiftLeft_eq]

@[simp] theorem join_halves (v : Word) : join (hiByte v) (loByte v) = v := by
  apply BitVec.eq_of_toNat_eq
  rw [toNat_join]
  simp only [hiByte, loByte, BitVec.extractLsb'_toNat, Nat.shiftRight_eq_div_pow]
  omega

theorem join_inj {hi lo hi' lo' : Byte} (h : join hi lo = join hi' lo') : hi = hi' ∧ lo = lo' :=
  ⟨by simpa using congrArg hiByte h, by simpa using congrArg loByte h⟩

end Sys2Proof.Machine
end

