-- ==== Sys2Proof/Laws/Decode.lean ====
section
/-! SUPPORT. Decoding, one equation per case. -/

namespace Sys2Proof

theorem decode_of_none {b1 : Byte} (rest : List Byte) (h : decodeFirst b1 = none) :
    decode (b1 :: rest) = .rejected (.unspecified b1) := by simp [decode, h]

theorem decode_of_some {b1 : Byte} {form : Form} (rest : List Byte) (h : decodeFirst b1 = some form) :
    decode (b1 :: rest) = decodeTail form rest := by simp [decode, h]

@[simp] theorem decodeTail_one (i : Instr) (rest : List Byte) : decodeTail (.one i) rest = .instr i rest := rfl
@[simp] theorem decodeTail_two (f : Byte → Instr) (b2 : Byte) (rest : List Byte) :
    decodeTail (.two f) (b2 :: rest) = .instr (f b2) rest := rfl
@[simp] theorem decodeTail_three (f : Word → Instr) (b2 b3 : Byte) (rest : List Byte) :
    decodeTail (.three f) (b2 :: b3 :: rest) = .instr (f (Machine.join b3 b2)) rest := rfl

/-- A tail is never rejected for its first byte. -/
theorem decodeTail_ne_unspecified (form : Form) (rest : List Byte) (b : Byte) :
    decodeTail form rest ≠ .rejected (.unspecified b) := by
  cases form <;> rcases rest with _ | ⟨x, _ | ⟨y, r⟩⟩ <;> simp [decodeTail]

/-- The length is known exactly when the first byte has a meaning. -/
theorem instrLength_eq_some {b1 : Byte} {n : Nat} :
    instrLength b1 = some n ↔ ∃ form, decodeFirst b1 = some form ∧ form.length = n := by
  simp [instrLength]

end Sys2Proof
end

