-- ==== Sys2Proof/Laws/Memory.lean ====
section
/-! SUPPORT. Memory: a read after a write, and the canonical form that every memory operation keeps. -/

namespace Sys2Proof.Machine

theorem lookupCell_eraseCell (cs : List Host.Cell) (a x : Nat) :
    lookupCell (eraseCell cs a) x = if x = a then Memory.unlisted else lookupCell cs x := by
  induction cs with
  | nil => simp [eraseCell, lookupCell]
  | cons c cs ih =>
    obtain ⟨k, v⟩ := c
    by_cases hk : k = a
    · subst hk
      by_cases hx : x = k
      · subst hx; simp [eraseCell, ih]
      · simp [eraseCell, ih, lookupCell, hx, Ne.symm hx]
    · by_cases hx : k = x
      · subst hx; simp [eraseCell, lookupCell, hk]
      · simp [eraseCell, lookupCell, hk, hx, ih]

theorem lookupCell_insertCell_other (cs : List Host.Cell) {a x : Nat} (v : Byte) (h : x ≠ a) :
    lookupCell (insertCell cs a v) x = lookupCell cs x := by
  induction cs with
  | nil => simp [insertCell, lookupCell, Ne.symm h]
  | cons c cs ih =>
    obtain ⟨k, w⟩ := c
    by_cases hk : a < k
    · simp [insertCell, hk, lookupCell, Ne.symm h]
    · simp [insertCell, hk, lookupCell, ih]

theorem lookupCell_insertCell_same (cs : List Host.Cell) (a : Nat) (v : Byte) :
    lookupCell (insertCell (eraseCell cs a) a v) a = v := by
  induction cs with
  | nil => simp [eraseCell, insertCell, lookupCell]
  | cons c cs ih =>
    obtain ⟨k, w⟩ := c
    by_cases hk : k = a
    · simp [eraseCell, hk, ih]
    · by_cases hlt : a < k
      · simp [eraseCell, hk, insertCell, hlt, lookupCell]
      · simp [eraseCell, hk, insertCell, hlt, lookupCell, ih]

/-- A read of the address just written gives the byte written (R64), whatever the cells. -/
@[simp] theorem Memory.read_write_same (m : Memory) (a : Word) (v : Byte) : (m.write a v).read a = v := by
  unfold Memory.write Memory.read
  split
  · rename_i h; simp [lookupCell_eraseCell, h]
  · exact lookupCell_insertCell_same ..

/-- A write leaves every other address alone (R64). -/
theorem Memory.read_write_other (m : Memory) {a x : Word} (v : Byte) (h : x ≠ a) :
    (m.write a v).read x = m.read x := by
  have hn : x.toNat ≠ a.toNat := fun e => h (BitVec.eq_of_toNat_eq e)
  unfold Memory.write Memory.read
  split
  · simp [lookupCell_eraseCell, hn]
  · simp [lookupCell_insertCell_other _ _ hn, lookupCell_eraseCell, hn]

theorem Memory.read_write (m : Memory) (a x : Word) (v : Byte) :
    (m.write a v).read x = if x = a then v else m.read x := by
  split
  · rename_i h; subst h; exact Memory.read_write_same ..
  · rename_i h; exact Memory.read_write_other _ _ h

/-! ### The canonical form -/

theorem mem_eraseCell {cs : List Host.Cell} {a : Nat} {c : Host.Cell} :
    c ∈ eraseCell cs a ↔ c ∈ cs ∧ c.1 ≠ a := by
  induction cs with
  | nil => simp [eraseCell]
  | cons k cs ih =>
    obtain ⟨k, w⟩ := k
    by_cases hk : k = a
    · subst hk
      simp only [eraseCell, if_true, ih, List.mem_cons]
      constructor
      · exact fun h => ⟨.inr h.1, h.2⟩
      · rintro ⟨rfl | h, hn⟩
        · exact absurd rfl hn
        · exact ⟨h, hn⟩
    · simp only [eraseCell, hk, if_false, List.mem_cons, ih]
      constructor
      · rintro (rfl | h)
        · exact ⟨.inl rfl, hk⟩
        · exact ⟨.inr h.1, h.2⟩
      · rintro ⟨rfl | h, hn⟩
        · exact .inl rfl
        · exact .inr ⟨h, hn⟩

theorem mem_insertCell {cs : List Host.Cell} {a : Nat} {v : Byte} {c : Host.Cell} :
    c ∈ insertCell cs a v ↔ c = (a, v) ∨ c ∈ cs := by
  induction cs with
  | nil => simp [insertCell]
  | cons k cs ih =>
    obtain ⟨k, w⟩ := k
    by_cases hk : a < k
    · simp [insertCell, hk]
    · simp only [insertCell, hk, if_false, List.mem_cons, ih]
      tauto

theorem pairwise_eraseCell {cs : List Host.Cell} (a : Nat) (h : cs.Pairwise (fun x y => x.1 < y.1)) :
    (eraseCell cs a).Pairwise (fun x y => x.1 < y.1) := by
  induction cs with
  | nil => simp [eraseCell]
  | cons k cs ih =>
    obtain ⟨k, w⟩ := k
    rw [List.pairwise_cons] at h
    by_cases hk : k = a
    · simpa [eraseCell, hk] using ih h.2
    · simp only [eraseCell, hk, if_false, List.pairwise_cons]
      exact ⟨fun c hc => h.1 c (mem_eraseCell.1 hc).1, ih h.2⟩

theorem pairwise_insertCell {cs : List Host.Cell} {a : Nat} (v : Byte)
    (h : cs.Pairwise (fun x y => x.1 < y.1)) (hn : ∀ c ∈ cs, c.1 ≠ a) :
    (insertCell cs a v).Pairwise (fun x y => x.1 < y.1) := by
  induction cs with
  | nil => simp [insertCell]
  | cons k cs ih =>
    obtain ⟨k, w⟩ := k
    have hc := List.pairwise_cons.1 h
    by_cases hk : a < k
    · simp only [insertCell, hk, if_true]
      refine List.pairwise_cons.2 ⟨fun c hm => ?_, h⟩
      rcases List.mem_cons.1 hm with rfl | hm
      · exact hk
      · exact Nat.lt_trans hk (hc.1 c hm)
    · simp only [insertCell, hk, if_false]
      refine List.pairwise_cons.2 ⟨fun c hm => ?_, ih hc.2 fun c hm => hn c (List.mem_cons_of_mem _ hm)⟩
      rcases mem_insertCell.1 hm with rfl | hm
      · exact Nat.lt_of_le_of_ne (Nat.le_of_not_lt hk) (hn _ List.mem_cons_self)
      · exact hc.1 c hm

/-- A write keeps the canonical form. -/
theorem Memory.wf_write {m : Memory} (h : m.wf) (a : Word) (v : Byte) : (m.write a v).wf := by
  have he : ∀ c ∈ eraseCell m.cells a.toNat, c.1 < 65536 ∧ c.2 ≠ Memory.unlisted :=
    fun c hc => h.2 c (mem_eraseCell.1 hc).1
  have hp := pairwise_eraseCell a.toNat h.1
  unfold Memory.write
  split
  · exact ⟨hp, he⟩
  · rename_i hv
    refine ⟨pairwise_insertCell v hp fun c hc => (mem_eraseCell.1 hc).2, fun c hc => ?_⟩
    rcases mem_insertCell.1 hc with rfl | hc
    · exact ⟨a.isLt, hv⟩
    · exact he c hc

/-- Placing bytes keeps the canonical form. -/
theorem wf_placeBytes {m : Memory} (h : m.wf) (a : Word) (bs : List Byte) : (placeBytes m a bs).wf := by
  induction bs generalizing m a with
  | nil => exact h
  | cons b bs ih => exact ih (Memory.wf_write h a b) _

theorem lookupCell_of_lt {cs : List Host.Cell} {a : Nat} (h : ∀ c ∈ cs, a < c.1) :
    lookupCell cs a = Memory.unlisted := by
  induction cs with
  | nil => rfl
  | cons c cs ih =>
    obtain ⟨k, v⟩ := c
    have hk : k ≠ a := Nat.ne_of_gt (h _ List.mem_cons_self)
    simpa [lookupCell, hk] using ih fun c hc => h c (List.mem_cons_of_mem _ hc)

theorem cells_ext {xs ys : List Host.Cell}
    (hx : xs.Pairwise (fun x y => x.1 < y.1)) (hy : ys.Pairwise (fun x y => x.1 < y.1))
    (nx : ∀ c ∈ xs, c.2 ≠ Memory.unlisted) (ny : ∀ c ∈ ys, c.2 ≠ Memory.unlisted)
    (h : ∀ a, lookupCell xs a = lookupCell ys a) : xs = ys := by
  induction xs generalizing ys with
  | nil =>
    cases ys with
    | nil => rfl
    | cons c ys =>
      have := h c.1
      simp only [lookupCell, if_true] at this
      exact absurd this.symm (ny c List.mem_cons_self)
  | cons c xs ih =>
    obtain ⟨k, v⟩ := c
    have hxc := List.pairwise_cons.1 hx
    cases ys with
    | nil =>
      have := h k
      simp only [lookupCell, if_true] at this
      exact absurd this (nx _ List.mem_cons_self)
    | cons d ys =>
      obtain ⟨j, w⟩ := d
      have hyc := List.pairwise_cons.1 hy
      have hkj : k = j := by
        rcases Nat.lt_trichotomy k j with hlt | he | hlt
        · have e := h k
          have e2 : lookupCell ((j, w) :: ys) k = Memory.unlisted :=
            lookupCell_of_lt fun c hc => by
              rcases List.mem_cons.1 hc with rfl | hc
              · exact hlt
              · exact Nat.lt_trans hlt (hyc.1 c hc)
          rw [e2] at e
          simp only [lookupCell, if_true] at e
          exact absurd e (nx _ List.mem_cons_self)
        · exact he
        · have e := h j
          have e2 : lookupCell ((k, v) :: xs) j = Memory.unlisted :=
            lookupCell_of_lt fun c hc => by
              rcases List.mem_cons.1 hc with rfl | hc
              · exact hlt
              · exact Nat.lt_trans hlt (hxc.1 c hc)
          rw [e2] at e
          simp only [lookupCell, if_true] at e
          exact absurd e.symm (ny _ List.mem_cons_self)
      subst hkj
      have hvw : v = w := by simpa [lookupCell] using h k
      subst hvw
      have : xs = ys := ih hxc.2 hyc.2 (fun c hc => nx c (List.mem_cons_of_mem _ hc))
        (fun c hc => ny c (List.mem_cons_of_mem _ hc)) fun a => by
          by_cases hak : k = a
          · subst hak
            rw [lookupCell_of_lt fun c hc => hxc.1 c hc, lookupCell_of_lt fun c hc => hyc.1 c hc]
          · simpa [lookupCell, hak] using h a
      rw [this]

/-- The canonical form is canonical: two canonical memories that read alike are equal data. -/
theorem Memory.eq_of_read_eq {m n : Memory} (hm : m.wf) (hn : n.wf) (h : ∀ a, m.read a = n.read a) : m = n := by
  obtain ⟨xs⟩ := m
  obtain ⟨ys⟩ := n
  congr 1
  refine cells_ext hm.1 hn.1 (fun c hc => (hm.2 c hc).2) (fun c hc => (hn.2 c hc).2) fun a => ?_
  by_cases ha : a < 65536
  · have := h (BitVec.ofNat 16 a)
    simpa [Memory.read, Nat.mod_eq_of_lt ha] using this
  · have out : ∀ zs : List Host.Cell, (∀ c ∈ zs, c.1 < 65536) → lookupCell zs a = Memory.unlisted := by
      intro zs hz
      induction zs with
      | nil => rfl
      | cons c zs ih =>
        obtain ⟨k, v⟩ := c
        have hk : k ≠ a := fun e => ha (e ▸ hz _ List.mem_cons_self)
        simpa [lookupCell, hk] using ih fun c hc => hz c (List.mem_cons_of_mem _ hc)
    rw [out xs fun c hc => (hm.2 c hc).1, out ys fun c hc => (hn.2 c hc).1]

/-- A writable address is present (R56). -/
theorem memPresent_of_memWritable {c : Config} {a : Word} (h : memWritable c a = true) : memPresent c a = true := by
  simp only [memWritable, memPresent, List.any_eq_true, Bool.and_eq_true] at *
  obtain ⟨r, hr, hc, _⟩ := h
  exact ⟨r, hr, hc⟩

end Sys2Proof.Machine
end

