-- ==== Sys2Proof/Laws/State.lean ====
section
/-! SUPPORT. One lemma per field per update of the state, so that no proof unfolds a record update. -/

namespace Sys2Proof.Machine

variable (s : State)

@[simp] theorem State.withRegs_regs (r : Regs) : (s.withRegs r).regs = r := rfl
@[simp] theorem State.withRegs_flags (r : Regs) : (s.withRegs r).flags = s.flags := rfl
@[simp] theorem State.withRegs_sp (r : Regs) : (s.withRegs r).sp = s.sp := rfl
@[simp] theorem State.withRegs_pc (r : Regs) : (s.withRegs r).pc = s.pc := rfl
@[simp] theorem State.withRegs_mem (r : Regs) : (s.withRegs r).mem = s.mem := rfl
@[simp] theorem State.withRegs_cfg (r : Regs) : (s.withRegs r).cfg = s.cfg := rfl

@[simp] theorem State.withA_regs (v : Byte) : (s.withA v).regs = { s.regs with a := v } := rfl
@[simp] theorem State.withA_flags (v : Byte) : (s.withA v).flags = s.flags := rfl
@[simp] theorem State.withA_sp (v : Byte) : (s.withA v).sp = s.sp := rfl
@[simp] theorem State.withA_pc (v : Byte) : (s.withA v).pc = s.pc := rfl
@[simp] theorem State.withA_mem (v : Byte) : (s.withA v).mem = s.mem := rfl
@[simp] theorem State.withA_cfg (v : Byte) : (s.withA v).cfg = s.cfg := rfl

@[simp] theorem State.withFlags_regs (f : Flags) : (s.withFlags f).regs = s.regs := rfl
@[simp] theorem State.withFlags_flags (f : Flags) : (s.withFlags f).flags = f := rfl
@[simp] theorem State.withFlags_sp (f : Flags) : (s.withFlags f).sp = s.sp := rfl
@[simp] theorem State.withFlags_pc (f : Flags) : (s.withFlags f).pc = s.pc := rfl
@[simp] theorem State.withFlags_mem (f : Flags) : (s.withFlags f).mem = s.mem := rfl
@[simp] theorem State.withFlags_cfg (f : Flags) : (s.withFlags f).cfg = s.cfg := rfl

@[simp] theorem State.withCy_regs (c : Bool) : (s.withCy c).regs = s.regs := rfl
@[simp] theorem State.withCy_flags (c : Bool) : (s.withCy c).flags = { s.flags with cy := c } := rfl
@[simp] theorem State.withCy_sp (c : Bool) : (s.withCy c).sp = s.sp := rfl
@[simp] theorem State.withCy_pc (c : Bool) : (s.withCy c).pc = s.pc := rfl
@[simp] theorem State.withCy_mem (c : Bool) : (s.withCy c).mem = s.mem := rfl
@[simp] theorem State.withCy_cfg (c : Bool) : (s.withCy c).cfg = s.cfg := rfl

@[simp] theorem State.withSp_regs (v : Word) : (s.withSp v).regs = s.regs := rfl
@[simp] theorem State.withSp_flags (v : Word) : (s.withSp v).flags = s.flags := rfl
@[simp] theorem State.withSp_sp (v : Word) : (s.withSp v).sp = v := rfl
@[simp] theorem State.withSp_pc (v : Word) : (s.withSp v).pc = s.pc := rfl
@[simp] theorem State.withSp_mem (v : Word) : (s.withSp v).mem = s.mem := rfl
@[simp] theorem State.withSp_cfg (v : Word) : (s.withSp v).cfg = s.cfg := rfl

@[simp] theorem State.withPc_regs (v : Word) : (s.withPc v).regs = s.regs := rfl
@[simp] theorem State.withPc_flags (v : Word) : (s.withPc v).flags = s.flags := rfl
@[simp] theorem State.withPc_sp (v : Word) : (s.withPc v).sp = s.sp := rfl
@[simp] theorem State.withPc_pc (v : Word) : (s.withPc v).pc = v := rfl
@[simp] theorem State.withPc_mem (v : Word) : (s.withPc v).mem = s.mem := rfl
@[simp] theorem State.withPc_cfg (v : Word) : (s.withPc v).cfg = s.cfg := rfl

@[simp] theorem State.withMem_regs (m : Memory) : (s.withMem m).regs = s.regs := rfl
@[simp] theorem State.withMem_flags (m : Memory) : (s.withMem m).flags = s.flags := rfl
@[simp] theorem State.withMem_sp (m : Memory) : (s.withMem m).sp = s.sp := rfl
@[simp] theorem State.withMem_pc (m : Memory) : (s.withMem m).pc = s.pc := rfl
@[simp] theorem State.withMem_mem (m : Memory) : (s.withMem m).mem = m := rfl
@[simp] theorem State.withMem_cfg (m : Memory) : (s.withMem m).cfg = s.cfg := rfl

@[simp] theorem State.advance_regs (len : Nat) : (s.advance len).regs = s.regs := rfl
@[simp] theorem State.advance_flags (len : Nat) : (s.advance len).flags = s.flags := rfl
@[simp] theorem State.advance_sp (len : Nat) : (s.advance len).sp = s.sp := rfl
@[simp] theorem State.advance_pc (len : Nat) : (s.advance len).pc = s.pc + BitVec.ofNat 16 len := rfl
@[simp] theorem State.advance_mem (len : Nat) : (s.advance len).mem = s.mem := rfl
@[simp] theorem State.advance_cfg (len : Nat) : (s.advance len).cfg = s.cfg := rfl

/-! ### Writing a register pair changes the registers alone -/

@[simp] theorem State.withPair_flags (rp : Pair) (v : Word) : (s.withPair rp v).flags = s.flags := by cases rp <;> rfl
@[simp] theorem State.withPair_sp (rp : Pair) (v : Word) : (s.withPair rp v).sp = s.sp := by cases rp <;> rfl
@[simp] theorem State.withPair_pc (rp : Pair) (v : Word) : (s.withPair rp v).pc = s.pc := by cases rp <;> rfl
@[simp] theorem State.withPair_mem (rp : Pair) (v : Word) : (s.withPair rp v).mem = s.mem := by cases rp <;> rfl
@[simp] theorem State.withPair_cfg (rp : Pair) (v : Word) : (s.withPair rp v).cfg = s.cfg := by cases rp <;> rfl

@[simp] theorem State.withPair_bc_regs (v : Word) :
    (s.withPair .bc v).regs = { s.regs with b := hiByte v, c := loByte v } := rfl
@[simp] theorem State.withPair_de_regs (v : Word) :
    (s.withPair .de v).regs = { s.regs with d := hiByte v, e := loByte v } := rfl
@[simp] theorem State.withPair_hl_regs (v : Word) :
    (s.withPair .hl v).regs = { s.regs with h := hiByte v, l := loByte v } := rfl

/-! ### Placing an instruction changes memory alone -/

@[simp] theorem State.withFetchWord_regs (nbits w : Nat) : (s.withFetchWord nbits w).regs = s.regs := rfl
@[simp] theorem State.withFetchWord_flags (nbits w : Nat) : (s.withFetchWord nbits w).flags = s.flags := rfl
@[simp] theorem State.withFetchWord_sp (nbits w : Nat) : (s.withFetchWord nbits w).sp = s.sp := rfl
@[simp] theorem State.withFetchWord_pc (nbits w : Nat) : (s.withFetchWord nbits w).pc = s.pc := rfl
@[simp] theorem State.withFetchWord_cfg (nbits w : Nat) : (s.withFetchWord nbits w).cfg = s.cfg := rfl
@[simp] theorem State.withFetchWord_mem (nbits w : Nat) :
    (s.withFetchWord nbits w).mem = placeBytes s.mem s.pc (tableBytes nbits w) := rfl

end Sys2Proof.Machine
end

