-- ==== Sys2Proof/Laws/Ops.lean ====
section
/-! SUPPORT. What each shared operation can do, said once: when it answers a value, and which. -/

namespace Sys2Proof.Machine

@[simp] theorem bindR_next {α β : Type} (x : α) (f : α → Result β) : bindR (.next x) f = f x := rfl
@[simp] theorem bindR_fault {α β : Type} (r : Fault) (f : α → Result β) : bindR (.fault r) f = .fault r := rfl
@[simp] theorem bindR_refused {α β : Type} (r : Refusal) (f : α → Result β) : bindR (.refused r) f = .refused r := rfl

/-- A chain answers a value exactly when its first part does and the rest does on it. -/
theorem bindR_eq_next {α β : Type} {o : Result α} {f : α → Result β} {y : β} :
    bindR o f = .next y ↔ ∃ x, o = .next x ∧ f x = .next y := by
  cases o <;> simp [bindR]

theorem readByte_of_present {s : State} {a : Word} (h : memPresent s.cfg a = true) :
    readByte s a = .next (s.mem.read a) := by simp [readByte, h]

theorem readByte_eq_next {s : State} {a : Word} {v : Byte} :
    readByte s a = .next v ↔ memPresent s.cfg a = true ∧ v = s.mem.read a := by
  unfold readByte
  split
  · rename_i h; exact ⟨fun e => ⟨h, by cases e; rfl⟩, fun e => by rw [e.2]⟩
  · rename_i h; exact ⟨fun e => (by cases e), fun e => absurd e.1 h⟩

theorem writeByte_of_writable {s : State} {a : Word} (v : Byte) (h : memWritable s.cfg a = true) :
    writeByte s a v = .next (s.withMem (s.mem.write a v)) := by simp [writeByte, h]

theorem writeByte_eq_next {s t : State} {a : Word} {v : Byte} :
    writeByte s a v = .next t ↔ memWritable s.cfg a = true ∧ t = s.withMem (s.mem.write a v) := by
  unfold writeByte
  split
  · rename_i h; exact ⟨fun e => ⟨h, by cases e; rfl⟩, fun e => by rw [e.2]⟩
  · rename_i h; exact ⟨fun e => (by cases e), fun e => absurd e.1 h⟩

theorem readTwo_eq_next {s : State} {a v : Word} :
    readTwo s a = .next v ↔
      memPresent s.cfg a = true ∧ memPresent s.cfg (a + 1#16) = true ∧
        v = join (s.mem.read (a + 1#16)) (s.mem.read a) := by
  simp only [readTwo, bindR_eq_next, readByte_eq_next]
  constructor
  · rintro ⟨lo, ⟨h1, rfl⟩, hi, ⟨h2, rfl⟩, h⟩
    exact ⟨h1, h2, by cases h; rfl⟩
  · rintro ⟨h1, h2, rfl⟩
    exact ⟨_, ⟨h1, rfl⟩, _, ⟨h2, rfl⟩, rfl⟩

theorem writeTwo_eq_next {s t : State} {a v : Word} :
    writeTwo s a v = .next t ↔
      memWritable s.cfg a = true ∧ memWritable s.cfg (a + 1#16) = true ∧
        t = s.withMem ((s.mem.write a (loByte v)).write (a + 1#16) (hiByte v)) := by
  simp only [writeTwo, bindR_eq_next, writeByte_eq_next]
  constructor
  · rintro ⟨s1, ⟨h1, rfl⟩, h2, rfl⟩
    exact ⟨h1, h2, rfl⟩
  · rintro ⟨h1, h2, rfl⟩
    exact ⟨_, ⟨h1, rfl⟩, h2, rfl⟩

theorem pushTwo_eq_next {s t : State} {hi lo : Byte} :
    pushTwo s hi lo = .next t ↔
      memWritable s.cfg (s.sp - 1#16) = true ∧ memWritable s.cfg (s.sp - 2#16) = true ∧
        t = (s.withMem ((s.mem.write (s.sp - 1#16) hi).write (s.sp - 2#16) lo)).withSp (s.sp - 2#16) := by
  simp only [pushTwo, bindR_eq_next, writeByte_eq_next]
  constructor
  · rintro ⟨s1, ⟨h1, rfl⟩, s2, ⟨h2, rfl⟩, h⟩
    exact ⟨h1, h2, by cases h; rfl⟩
  · rintro ⟨h1, h2, rfl⟩
    exact ⟨_, ⟨h1, rfl⟩, _, ⟨h2, rfl⟩, rfl⟩

/-- An operand is a register, always read, or M, read where `H ++ L` is present (R6). -/
theorem readOperand_eq_next {s : State} {r : Reg8} {v : Byte} :
    readOperand s r = .next v ↔
      (r = .m → memPresent s.cfg (pairValue s .hl) = true) ∧
        v = (match r with
          | .b => s.regs.b | .c => s.regs.c | .d => s.regs.d | .e => s.regs.e | .h => s.regs.h | .l => s.regs.l
          | .m => s.mem.read (pairValue s .hl) | .a => s.regs.a) := by
  cases r with
  | m => simp [readOperand, readByte_eq_next]
  | _ => exact ⟨fun e => ⟨fun h => (by cases h), by cases e; rfl⟩, fun e => by rw [e.2]; rfl⟩

/-- Writing an operand changes one register, or for M one byte of memory where `H ++ L` is writable (R6). -/
theorem writeOperand_eq_next {s t : State} {r : Reg8} {v : Byte} :
    writeOperand s r v = .next t ↔
      (r = .m → memWritable s.cfg (pairValue s .hl) = true) ∧
        t = (match r with
          | .b => s.withRegs { s.regs with b := v } | .c => s.withRegs { s.regs with c := v }
          | .d => s.withRegs { s.regs with d := v } | .e => s.withRegs { s.regs with e := v }
          | .h => s.withRegs { s.regs with h := v } | .l => s.withRegs { s.regs with l := v }
          | .m => s.withMem (s.mem.write (pairValue s .hl) v) | .a => s.withRegs { s.regs with a := v }) := by
  cases r with
  | m => simp [writeOperand, writeByte_eq_next]
  | _ => exact ⟨fun e => ⟨fun h => (by cases h), by cases e; rfl⟩, fun e => by rw [e.2]; rfl⟩

/-- Pair code 11 in DAD, INX and DCX completes exactly under `RP11_ARITH = sp` (R23). -/
theorem withRp11_eq_next {s t u : State} {b1 : Byte} :
    withRp11 s b1 t = .next u ↔ s.cfg.rp11Arith = .sp ∧ u = t := by
  unfold withRp11
  split
  · rename_i h; exact ⟨fun e => ⟨h, by cases e; rfl⟩, fun e => by rw [e.2]⟩
  · rename_i h; exact ⟨fun e => (by cases e), fun e => by rw [h] at e; cases e.1⟩

theorem jumpIf_eq_next {s t : State} {cond : Bool} {addr : Word} :
    jumpIf cond addr s = .next t ↔ t = if cond then s.withPc addr else s.advance 3 := by
  unfold jumpIf
  split <;> exact ⟨fun e => by cases e; rfl, fun e => by rw [e]⟩

end Sys2Proof.Machine
end

