-- ==== Sys2Proof/Laws/Fetch.lean ====
section
/-! SUPPORT. What fetch and step can do, said once. -/

namespace Sys2Proof.Machine

theorem fetchByte_eq_next {s : State} {a : Word} {v : Byte} :
    fetchByte s a = .next v ↔ memPresent s.cfg a = true ∧ v = s.mem.read a := by
  unfold fetchByte
  split
  · rename_i h; exact ⟨fun e => ⟨h, by cases e; rfl⟩, fun e => by rw [e.2]⟩
  · rename_i h; exact ⟨fun e => (by cases e), fun e => absurd e.1 h⟩

/-- Fetch answers an instruction only before END_PC, only from present bytes, and only the one they decode to (R226). -/
theorem fetch_eq_next {s : State} {i : Instr} (h : fetch s = .next i) :
    s.cfg.endPc ≠ some s.pc ∧ memPresent s.cfg s.pc = true ∧
      ∃ n bs rest, instrLength (s.mem.read s.pc) = some n ∧ fetchBytes s n s.pc = .next bs ∧ decode bs = .instr i rest := by
  unfold fetch at h
  split at h
  · cases h
  · rename_i hend
    obtain ⟨b1, hb, h⟩ := bindR_eq_next.1 h
    obtain ⟨hp, rfl⟩ := fetchByte_eq_next.1 hb
    refine ⟨hend, hp, ?_⟩
    split at h
    · cases h
    · rename_i n hn
      obtain ⟨bs, hbs, h⟩ := bindR_eq_next.1 h
      split at h
      · rename_i j rest hd
        cases h
        exact ⟨n, bs, rest, hn, hbs, hd⟩
      · cases h

/-- A step has a next state only by fetching an instruction and executing it. -/
theorem step_eq_next {s t : State} : step s = .next t ↔ ∃ i, fetch s = .next i ∧ exec i s = .next t := bindR_eq_next

end Sys2Proof.Machine
end

