-- ==== Sys2Proof/Laws/Flags.lean ====
section
/-! SUPPORT. The adder in integers, and the Status Bit Register as a byte. -/

namespace Sys2Proof.Machine

theorem toNat_bitOf (n : Nat) (hn : 1 ≤ n) (c : Bool) : (bitOf n c).toNat = c.toNat := by
  have : 2 ≤ 2 ^ n := by simpa using Nat.pow_le_pow_right (by omega : 0 < 2) hn
  cases c
  · simp [bitOf]
  · simp [bitOf]; omega

/-- The 9-bit sum of `add8` holds the integer sum (R9: "it cannot overflow"). -/
theorem add8_sum (a b : Byte) (c : Bool) :
    (a.setWidth 9 + b.setWidth 9 + bitOf 9 c : BitVec 9).toNat = a.toNat + b.toNat + c.toNat := by
  have := a.isLt; have := b.isLt; have := Bool.toNat_le c
  simp only [BitVec.toNat_add, BitVec.toNat_setWidth, toNat_bitOf 9 (by omega)]
  omega

theorem getLsbD_top9 (v : BitVec 9) : v.getLsbD 8 = decide (256 ≤ v.toNat) := by
  have := v.isLt
  rw [BitVec.getLsbD, Nat.testBit_eq_decide_div_mod_eq]
  exact decide_eq_decide.2 (by omega)

theorem getLsbD_top5 (v : BitVec 5) : v.getLsbD 4 = decide (16 ≤ v.toNat) := by
  have := v.isLt
  rw [BitVec.getLsbD, Nat.testBit_eq_decide_div_mod_eq]
  exact decide_eq_decide.2 (by omega)

theorem toNat_nibble5 (v : Byte) : (nibble5 v).toNat = v.toNat % 16 := by
  simp only [nibble5, BitVec.toNat_setWidth, BitVec.extractLsb'_toNat, Nat.shiftRight_zero]
  omega

@[simp] theorem Flags.ofAlu_cy (f : Flags) (r : AluResult) : (f.ofAlu r).cy = r.cy := rfl
@[simp] theorem Flags.ofAlu_ac (f : Flags) (r : AluResult) : (f.ofAlu r).ac = r.ac := rfl
@[simp] theorem Flags.ofAlu_s (f : Flags) (r : AluResult) : (f.ofAlu r).s = r.res.getLsbD 7 := rfl
@[simp] theorem Flags.ofAlu_z (f : Flags) (r : AluResult) : (f.ofAlu r).z = decide (r.res = 0x00#8) := rfl
@[simp] theorem Flags.ofAlu_p (f : Flags) (r : AluResult) : (f.ofAlu r).p = parity8 r.res := by
  simp only [Flags.ofAlu, Flags.szp]

@[simp] theorem Flags.ofLogic_cy (f : Flags) (ac : Bool) (v : Byte) : (f.ofLogic ac v).cy = false := rfl
@[simp] theorem Flags.ofLogic_ac (f : Flags) (ac : Bool) (v : Byte) : (f.ofLogic ac v).ac = ac := rfl
@[simp] theorem Flags.ofLogic_s (f : Flags) (ac : Bool) (v : Byte) : (f.ofLogic ac v).s = v.getLsbD 7 := rfl
@[simp] theorem Flags.ofLogic_z (f : Flags) (ac : Bool) (v : Byte) : (f.ofLogic ac v).z = decide (v = 0x00#8) := rfl
@[simp] theorem Flags.ofLogic_p (f : Flags) (ac : Bool) (v : Byte) : (f.ofLogic ac v).p = parity8 v := by
  simp only [Flags.ofLogic, Flags.szp]

end Sys2Proof.Machine
end

