-- ==== Sys2Proof/Laws/PerInstr.lean ====
section
/-! SUPPORT. Families of facts about every instruction as syntax, one lemma per constructor. -/

namespace Sys2Proof.Laws

/-- Byte 1 alone decides the length (R70): the length read from the first byte of an encoding is the encoding's. -/
def EncodedLength.Statement (i : Instr) : Prop :=
  i.wellFormed = true → ∃ b1 rest, encode i = b1 :: rest ∧ instrLength b1 = some (encode i).length

theorem EncodedLength.push (rp : Pair) : EncodedLength.Statement (.push rp) := by
  intro _; cases rp <;> exact ⟨_, _, rfl, rfl⟩
theorem EncodedLength.pushPsw : EncodedLength.Statement .pushPsw :=
  fun _ => ⟨_, _, rfl, rfl⟩
theorem EncodedLength.pop (rp : Pair) : EncodedLength.Statement (.pop rp) := by
  intro _; cases rp <;> exact ⟨_, _, rfl, rfl⟩
theorem EncodedLength.popPsw : EncodedLength.Statement .popPsw :=
  fun _ => ⟨_, _, rfl, rfl⟩
theorem EncodedLength.dad (rp : Pair) : EncodedLength.Statement (.dad rp) := by
  intro _; cases rp <;> exact ⟨_, _, rfl, rfl⟩
theorem EncodedLength.dadSp : EncodedLength.Statement .dadSp :=
  fun _ => ⟨_, _, rfl, rfl⟩
theorem EncodedLength.inx (rp : Pair) : EncodedLength.Statement (.inx rp) := by
  intro _; cases rp <;> exact ⟨_, _, rfl, rfl⟩
theorem EncodedLength.inxSp : EncodedLength.Statement .inxSp :=
  fun _ => ⟨_, _, rfl, rfl⟩
theorem EncodedLength.dcx (rp : Pair) : EncodedLength.Statement (.dcx rp) := by
  intro _; cases rp <;> exact ⟨_, _, rfl, rfl⟩
theorem EncodedLength.dcxSp : EncodedLength.Statement .dcxSp :=
  fun _ => ⟨_, _, rfl, rfl⟩
theorem EncodedLength.xchg : EncodedLength.Statement .xchg :=
  fun _ => ⟨_, _, rfl, rfl⟩
theorem EncodedLength.xthl : EncodedLength.Statement .xthl :=
  fun _ => ⟨_, _, rfl, rfl⟩
theorem EncodedLength.sphl : EncodedLength.Statement .sphl :=
  fun _ => ⟨_, _, rfl, rfl⟩
theorem EncodedLength.rlc : EncodedLength.Statement .rlc :=
  fun _ => ⟨_, _, rfl, rfl⟩
theorem EncodedLength.rrc : EncodedLength.Statement .rrc :=
  fun _ => ⟨_, _, rfl, rfl⟩
theorem EncodedLength.ral : EncodedLength.Statement .ral :=
  fun _ => ⟨_, _, rfl, rfl⟩
theorem EncodedLength.rar : EncodedLength.Statement .rar :=
  fun _ => ⟨_, _, rfl, rfl⟩
theorem EncodedLength.mov (dst src : Reg8) : EncodedLength.Statement (.mov dst src) := by
  intro h; cases dst <;> cases src <;> first | exact ⟨_, _, rfl, rfl⟩ | exact absurd h (by decide)
theorem EncodedLength.stax (x : XPair) : EncodedLength.Statement (.stax x) := by
  intro _; cases x <;> exact ⟨_, _, rfl, rfl⟩
theorem EncodedLength.ldax (x : XPair) : EncodedLength.Statement (.ldax x) := by
  intro _; cases x <;> exact ⟨_, _, rfl, rfl⟩
theorem EncodedLength.add (src : Reg8) : EncodedLength.Statement (.add src) := by
  intro _; cases src <;> exact ⟨_, _, rfl, rfl⟩
theorem EncodedLength.adc (src : Reg8) : EncodedLength.Statement (.adc src) := by
  intro _; cases src <;> exact ⟨_, _, rfl, rfl⟩
theorem EncodedLength.sub (src : Reg8) : EncodedLength.Statement (.sub src) := by
  intro _; cases src <;> exact ⟨_, _, rfl, rfl⟩
theorem EncodedLength.sbb (src : Reg8) : EncodedLength.Statement (.sbb src) := by
  intro _; cases src <;> exact ⟨_, _, rfl, rfl⟩
theorem EncodedLength.ana (src : Reg8) : EncodedLength.Statement (.ana src) := by
  intro _; cases src <;> exact ⟨_, _, rfl, rfl⟩
theorem EncodedLength.xra (src : Reg8) : EncodedLength.Statement (.xra src) := by
  intro _; cases src <;> exact ⟨_, _, rfl, rfl⟩
theorem EncodedLength.ora (src : Reg8) : EncodedLength.Statement (.ora src) := by
  intro _; cases src <;> exact ⟨_, _, rfl, rfl⟩
theorem EncodedLength.cmp (src : Reg8) : EncodedLength.Statement (.cmp src) := by
  intro _; cases src <;> exact ⟨_, _, rfl, rfl⟩
theorem EncodedLength.sta (addr : Word) : EncodedLength.Statement (.sta addr) :=
  fun _ => ⟨_, _, rfl, rfl⟩
theorem EncodedLength.lda (addr : Word) : EncodedLength.Statement (.lda addr) :=
  fun _ => ⟨_, _, rfl, rfl⟩
theorem EncodedLength.shld (addr : Word) : EncodedLength.Statement (.shld addr) :=
  fun _ => ⟨_, _, rfl, rfl⟩
theorem EncodedLength.lhld (addr : Word) : EncodedLength.Statement (.lhld addr) :=
  fun _ => ⟨_, _, rfl, rfl⟩
theorem EncodedLength.lxi (rp : Pair) (data : Word) : EncodedLength.Statement (.lxi rp data) := by
  intro _; cases rp <;> exact ⟨_, _, rfl, rfl⟩
theorem EncodedLength.lxiSp (data : Word) : EncodedLength.Statement (.lxiSp data) :=
  fun _ => ⟨_, _, rfl, rfl⟩
theorem EncodedLength.mvi (dst : Reg8) (data : Byte) : EncodedLength.Statement (.mvi dst data) := by
  intro _; cases dst <;> exact ⟨_, _, rfl, rfl⟩
theorem EncodedLength.adi (data : Byte) : EncodedLength.Statement (.adi data) :=
  fun _ => ⟨_, _, rfl, rfl⟩
theorem EncodedLength.aci (data : Byte) : EncodedLength.Statement (.aci data) :=
  fun _ => ⟨_, _, rfl, rfl⟩
theorem EncodedLength.sui (data : Byte) : EncodedLength.Statement (.sui data) :=
  fun _ => ⟨_, _, rfl, rfl⟩
theorem EncodedLength.sbi (data : Byte) : EncodedLength.Statement (.sbi data) :=
  fun _ => ⟨_, _, rfl, rfl⟩
theorem EncodedLength.ani (data : Byte) : EncodedLength.Statement (.ani data) :=
  fun _ => ⟨_, _, rfl, rfl⟩
theorem EncodedLength.xri (data : Byte) : EncodedLength.Statement (.xri data) :=
  fun _ => ⟨_, _, rfl, rfl⟩
theorem EncodedLength.ori (data : Byte) : EncodedLength.Statement (.ori data) :=
  fun _ => ⟨_, _, rfl, rfl⟩
theorem EncodedLength.cpi (data : Byte) : EncodedLength.Statement (.cpi data) :=
  fun _ => ⟨_, _, rfl, rfl⟩
theorem EncodedLength.pchl : EncodedLength.Statement .pchl :=
  fun _ => ⟨_, _, rfl, rfl⟩
theorem EncodedLength.jmp (addr : Word) : EncodedLength.Statement (.jmp addr) :=
  fun _ => ⟨_, _, rfl, rfl⟩
theorem EncodedLength.jc (addr : Word) : EncodedLength.Statement (.jc addr) :=
  fun _ => ⟨_, _, rfl, rfl⟩
theorem EncodedLength.jnc (addr : Word) : EncodedLength.Statement (.jnc addr) :=
  fun _ => ⟨_, _, rfl, rfl⟩
theorem EncodedLength.jz (addr : Word) : EncodedLength.Statement (.jz addr) :=
  fun _ => ⟨_, _, rfl, rfl⟩

end Sys2Proof.Laws
end

