-- ==== Sys2Proof/Laws/Rotate.lean ====
section
/-! SUPPORT. The two one-place shifts, bit by bit. -/

namespace Sys2Proof.Machine

theorem getLsbD_shiftInLow (v : Byte) (c : Bool) {k : Nat} (hk : k < 8) :
    (shiftInLow v c).getLsbD k = if k = 0 then c else v.getLsbD (k - 1) := by
  unfold shiftInLow
  rw [BitVec.getLsbD_append]
  rcases k with _ | k
  · simp
  · simp; omega

theorem getLsbD_shiftInHigh (v : Byte) (c : Bool) {k : Nat} (hk : k < 8) :
    (shiftInHigh v c).getLsbD k = if k = 7 then c else v.getLsbD (k + 1) := by
  unfold shiftInHigh
  rw [BitVec.getLsbD_append]
  by_cases h : k = 7
  · simp [h]
  · have h7 : k < 7 := by omega
    simp [h, h7, Nat.add_comm]

end Sys2Proof.Machine
end

