-- ==== Sys2Proof/Listing.lean ====
section
/-! DEFINITION. The symbolic form of an instruction (spec/30_encoding.md R84): a mnemonic in capitals, a space, the operands
with the destination first, numbers in hexadecimal without prefix. Text only; no behaviour of the machine rests on it
(DESIGN CHOICE of the spec, D23, log entry 36). -/

namespace Sys2Proof

/-- A register by its letter, M for the memory reference. -/
def Reg8.text : Reg8 → String
  | .b => "B"
  | .c => "C"
  | .d => "D"
  | .e => "E"
  | .h => "H"
  | .l => "L"
  | .m => "M"
  | .a => "A"

/-- A register pair by both letters. -/
def Pair.text : Pair → String
  | .bc => "BC"
  | .de => "DE"
  | .hl => "HL"

def XPair.text : XPair → String
  | .bc => "BC"
  | .de => "DE"

/-- One hexadecimal digit. -/
def hexDigit (n : Nat) : String :=
  match n with
  | 0 => "0" | 1 => "1" | 2 => "2" | 3 => "3" | 4 => "4" | 5 => "5" | 6 => "6" | 7 => "7"
  | 8 => "8" | 9 => "9" | 10 => "A" | 11 => "B" | 12 => "C" | 13 => "D" | 14 => "E" | _ => "F"

/-- Two hexadecimal digits. -/
def hexByte (v : Byte) : String := hexDigit (v.toNat / 16) ++ hexDigit (v.toNat % 16)

/-- Four hexadecimal digits. -/
def hexWord (v : Word) : String := hexByte (v.extractLsb' 8 8) ++ hexByte (v.extractLsb' 0 8)

/-- The line that a listing of the spec shows for an instruction (R84). -/
def Instr.text : Instr → String
  | .push rp => "PUSH " ++ rp.text
  | .pushPsw => "PUSH PSW"
  | .pop rp => "POP " ++ rp.text
  | .popPsw => "POP PSW"
  | .dad rp => "DAD " ++ rp.text
  | .dadSp => "DAD SP"
  | .inx rp => "INX " ++ rp.text
  | .inxSp => "INX SP"
  | .dcx rp => "DCX " ++ rp.text
  | .dcxSp => "DCX SP"
  | .xchg => "XCHG"
  | .xthl => "XTHL"
  | .sphl => "SPHL"
  | .rlc => "RLC"
  | .rrc => "RRC"
  | .ral => "RAL"
  | .rar => "RAR"
  | .mov dst src => "MOV " ++ dst.text ++ "," ++ src.text
  | .stax x => "STAX " ++ x.text
  | .ldax x => "LDAX " ++ x.text
  | .add src => "ADD " ++ src.text
  | .adc src => "ADC " ++ src.text
  | .sub src => "SUB " ++ src.text
  | .sbb src => "SBB " ++ src.text
  | .ana src => "ANA " ++ src.text
  | .xra src => "XRA " ++ src.text
  | .ora src => "ORA " ++ src.text
  | .cmp src => "CMP " ++ src.text
  | .sta addr => "STA " ++ hexWord addr
  | .lda addr => "LDA " ++ hexWord addr
  | .shld addr => "SHLD " ++ hexWord addr
  | .lhld addr => "LHLD " ++ hexWord addr
  | .lxi rp data => "LXI " ++ rp.text ++ "," ++ hexWord data
  | .lxiSp data => "LXI SP," ++ hexWord data
  | .mvi dst data => "MVI " ++ dst.text ++ "," ++ hexByte data
  | .adi data => "ADI " ++ hexByte data
  | .aci data => "ACI " ++ hexByte data
  | .sui data => "SUI " ++ hexByte data
  | .sbi data => "SBI " ++ hexByte data
  | .ani data => "ANI " ++ hexByte data
  | .xri data => "XRI " ++ hexByte data
  | .ori data => "ORI " ++ hexByte data
  | .cpi data => "CPI " ++ hexByte data
  | .pchl => "PCHL"
  | .jmp addr => "JMP " ++ hexWord addr
  | .jc addr => "JC " ++ hexWord addr
  | .jnc addr => "JNC " ++ hexWord addr
  | .jz addr => "JZ " ++ hexWord addr

end Sys2Proof
end

