-- ==== Sys2Proof/Tests/Slice0.lean ====
section
/-! SUPPORT. Tests of one step each, their expected values taken from spec/95_test_vectors.md (the T- and V- numbers) or from
the encodings of spec/30_encoding.md, and one witness for the hypotheses of each statement. -/

namespace Sys2Proof.Tests

open Sys2Proof Sys2Proof.Machine Sys2Proof.Claims

/-! ### Helpers -/

/-- Five status bits in the order of the vectors: CY AC S Z P. -/
def fl (v : BitVec 5) : Flags :=
  { cy := v.getLsbD 4, ac := v.getLsbD 3, s := v.getLsbD 2, z := v.getLsbD 1, p := v.getLsbD 0 }

/-- The parameters of the vectors: the defaults, and the recommended default of `AUX_SUB` (R10). -/
def cfgT : Config := { Config.standard with auxSub := .carryOutOfBit3 }

/-- A state at pc 0100 with the given A, pairs, status bits, Stack Pointer and memory. -/
def st (a : Byte) (bc de hl : Word) (f : BitVec 5) (sp : Word) (cells : List Host.Cell) : State where
  regs  := { a := a, b := hiByte bc, c := loByte bc, d := hiByte de, e := loByte de, h := hiByte hl, l := loByte hl }
  flags := fl f
  sp    := sp
  pc    := 0x0100#16
  mem   := { cells := cells }
  cfg   := cfgT

/-- The state with other parameters. -/
def withCfg (s : State) (c : Config) : State := { s with cfg := c }

/-- One step on the given instruction bytes, put at pc. -/
def run1 (bs : List Byte) (s : State) : Result State := step (s.withMem (placeBytes s.mem s.pc bs))

/-- What the tests look at in a state. -/
structure Shown where
  a     : Byte
  bc    : Word
  de    : Word
  hl    : Word
  flags : Flags
  sp    : Word
  pc    : Word
deriving DecidableEq, Repr

/-- A, BC, DE, HL, the status bits, sp and pc of a next state; none for a fault or a refusal. -/
def shows (o : Result State) : Option Shown :=
  match o with
  | .next t => some ⟨t.regs.a, pairValue t .bc, pairValue t .de, pairValue t .hl, t.flags, t.sp, t.pc⟩
  | .fault _ => none
  | .refused _ => none

/-- Two bytes of memory of a next state. -/
def bytesAt (o : Result State) (x y : Word) : Option (Byte × Byte) :=
  match o with
  | .next t => some (t.mem.read x, t.mem.read y)
  | .fault _ => none
  | .refused _ => none

/-- The Auxiliary Carry Bit of a next state. -/
def acOf (o : Result State) : Option Bool :=
  match o with
  | .next t => some t.flags.ac
  | .fault _ => none
  | .refused _ => none

/-! ### WellFormed, the one check (R73, R83) -/

theorem test_wellFormed_refuses_mov_m_m : (Instr.mov .m .m).wellFormed = false := by decide
theorem test_wellFormed_admits_mov_m_a : (Instr.mov .m .a).wellFormed = true := by decide

/-! ### Decoding: one word of every constructor, written out from its format in spec/30_encoding.md -/

theorem test_decode_register_pair :
    decode [0b11010101#8] = .instr (.push .de) [] ∧ decode [0b11110101#8] = .instr .pushPsw [] ∧
    decode [0b11100001#8] = .instr (.pop .hl) [] ∧ decode [0b11110001#8] = .instr .popPsw [] ∧
    decode [0b00001001#8] = .instr (.dad .bc) [] ∧ decode [0b00111001#8] = .instr .dadSp [] ∧
    decode [0b00100011#8] = .instr (.inx .hl) [] ∧ decode [0b00110011#8] = .instr .inxSp [] ∧
    decode [0b00011011#8] = .instr (.dcx .de) [] ∧ decode [0b00111011#8] = .instr .dcxSp [] ∧
    decode [0b11101011#8] = .instr .xchg [] ∧ decode [0b11100011#8] = .instr .xthl [] ∧
    decode [0b11111001#8] = .instr .sphl [] := by decide

theorem test_decode_rotates :
    decode [0b00000111#8] = .instr .rlc [] ∧ decode [0b00001111#8] = .instr .rrc [] ∧
    decode [0b00010111#8] = .instr .ral [] ∧ decode [0b00011111#8] = .instr .rar [] := by decide

theorem test_decode_data_transfer :
    decode [0b01111011#8] = .instr (.mov .a .e) [] ∧ decode [0b01110100#8] = .instr (.mov .m .h) [] ∧
    decode [0b01001110#8] = .instr (.mov .c .m) [] ∧ decode [0b00010010#8] = .instr (.stax .de) [] ∧
    decode [0b00001010#8] = .instr (.ldax .bc) [] := by decide

theorem test_decode_accumulator :
    decode [0b10000000#8] = .instr (.add .b) [] ∧ decode [0b10001001#8] = .instr (.adc .c) [] ∧
    decode [0b10010111#8] = .instr (.sub .a) [] ∧ decode [0b10011011#8] = .instr (.sbb .e) [] ∧
    decode [0b10100101#8] = .instr (.ana .l) [] ∧ decode [0b10101010#8] = .instr (.xra .d) [] ∧
    decode [0b10110110#8] = .instr (.ora .m) [] ∧ decode [0b10111100#8] = .instr (.cmp .h) [] := by decide

theorem test_decode_direct :
    decode [0b00110010#8, 0x40#8, 0x41#8] = .instr (.sta 0x4140#16) [] ∧
    decode [0b00111010#8, 0x40#8, 0x41#8] = .instr (.lda 0x4140#16) [] ∧
    decode [0b00100010#8, 0x45#8, 0x75#8] = .instr (.shld 0x7545#16) [] ∧
    decode [0b00101010#8, 0x45#8, 0x75#8] = .instr (.lhld 0x7545#16) [] := by decide

theorem test_decode_immediate :
    decode [0b00010001#8, 0x7F#8, 0x7E#8] = .instr (.lxi .de 0x7E7F#16) [] ∧
    decode [0b00110001#8, 0x00#8, 0x01#8] = .instr (.lxiSp 0x0100#16) [] ∧
    decode [0b00011110#8, 0xFF#8] = .instr (.mvi .e 0xFF#8) [] ∧ decode [0b11000110#8, 0x80#8] = .instr (.adi 0x80#8) [] ∧
    decode [0b11001110#8, 0x2C#8] = .instr (.aci 0x2C#8) [] ∧ decode [0b11010110#8, 0x04#8] = .instr (.sui 0x04#8) [] ∧
    decode [0b11011110#8, 0x01#8] = .instr (.sbi 0x01#8) [] ∧ decode [0b11100110#8, 0x3B#8] = .instr (.ani 0x3B#8) [] ∧
    decode [0b11101110#8, 0x7F#8] = .instr (.xri 0x7F#8) [] ∧ decode [0b11110110#8, 0x01#8] = .instr (.ori 0x01#8) [] ∧
    decode [0b11111110#8, 0x43#8] = .instr (.cpi 0x43#8) [] := by decide

theorem test_decode_branching :
    decode [0b11101001#8] = .instr .pchl [] ∧ decode [0b11000011#8, 0xB8#8, 0xD6#8] = .instr (.jmp 0xD6B8#16) [] ∧
    decode [0b11011010#8, 0x13#8, 0x00#8] = .instr (.jc 0x0013#16) [] ∧
    decode [0b11010010#8, 0x13#8, 0x00#8] = .instr (.jnc 0x0013#16) [] ∧
    decode [0b11001010#8, 0x13#8, 0x00#8] = .instr (.jz 0x0013#16) [] := by decide

/-- T-X1, T-X2, T-X3, T-G12: bytes without a meaning; and a list that ends too early. -/
theorem test_decode_rejects :
    decode [0x00#8] = .rejected (.unspecified 0x00#8) ∧ decode [0x76#8] = .rejected (.unspecified 0x76#8) ∧
    decode [0xCD#8, 0x00#8, 0x00#8] = .rejected (.unspecified 0xCD#8) ∧
    decode [0xFB#8] = .rejected (.unspecified 0xFB#8) ∧ decode [0xC2#8, 0x13#8, 0x00#8] = .rejected (.unspecified 0xC2#8) ∧
    decode [0xC3#8, 0x00#8] = .rejected .truncated ∧ decode [0x3E#8] = .rejected .truncated := by decide

/-- The counts of R81 and R82: 187 first bytes have a meaning, 69 have none, and R82's list names each once. -/
theorem test_first_byte_counts :
    ((List.range 256).filter fun n => (decodeFirst (BitVec.ofNat 8 n)).isSome).length = 187 ∧
    unspecifiedBytes.length = 69 ∧ unspecifiedBytes.Nodup := by decide +kernel

/-- Table words: the first byte in the low bits; bits from `nbits` on are 0. -/
theorem test_table_words :
    decodeTableWord 8 0x7B = some (.mov .a .e) ∧ decodeTableWord 24 0xD6B8C3 = some (.jmp 0xD6B8#16) ∧
    decodeTableWord 8 0xFFC3 = some (.jmp 0x0000#16) ∧ decodeTableWord 8 0x76 = none := by decide

/-- The symbolic form, on lines of spec/95_test_vectors.md (R84). -/
theorem test_text :
    (Instr.mov .a .e).text = "MOV A,E" ∧ (Instr.lxi .hl 0xABCD#16).text = "LXI HL,ABCD" ∧ Instr.popPsw.text = "POP PSW" ∧
    (Instr.mvi .m 0x5A#8).text = "MVI M,5A" ∧ (Instr.jz 0x0013#16).text = "JZ 0013" := by decide

/-! ### Register pair instructions -/

/-- T-C1. -/
theorem test_push_bc :
    shows (run1 [0xC5#8] (st 0#8 0x1234#16 0#16 0#16 0b00000#5 0x2000#16 [])) =
      some ⟨0#8, 0x1234#16, 0#16, 0#16, fl 0b00000#5, 0x1FFE#16, 0x0101#16⟩ ∧
    bytesAt (run1 [0xC5#8] (st 0#8 0x1234#16 0#16 0#16 0b00000#5 0x2000#16 [])) 0x1FFF#16 0x1FFE#16 =
      some (0x12#8, 0x34#8) := by decide
/-- T-C2: the Stack Pointer wraps. -/
theorem test_push_wraps :
    bytesAt (run1 [0xC5#8] (st 0#8 0x1234#16 0#16 0#16 0b00000#5 0x0001#16 [])) 0x0000#16 0xFFFF#16 =
      some (0x12#8, 0x34#8) := by decide
/-- T-C5. -/
theorem test_pushPsw :
    bytesAt (run1 [0xF5#8] (st 0x00#8 0#16 0#16 0#16 0b11111#5 0x2000#16 [])) 0x1FFF#16 0x1FFE#16 =
      some (0xD7#8, 0x00#8) := by decide
/-- T-C7: `PSW_FLAGS_HIGH = false`. -/
theorem test_pushPsw_a_high :
    bytesAt (run1 [0xF5#8] (withCfg (st 0x5A#8 0#16 0#16 0#16 0b10000#5 0x2000#16 []) { cfgT with pswFlagsHigh := false }))
      0x1FFF#16 0x1FFE#16 = some (0x5A#8, 0x03#8) := by decide
/-- T-C9: the Stack Pointer wraps. -/
theorem test_pop_hl :
    shows (run1 [0xE1#8] (st 0#8 0#16 0#16 0#16 0b00000#5 0xFFFF#16 [(0, 0x22#8), (0xFFFF, 0x11#8)])) =
      some ⟨0#8, 0#16, 0#16, 0x2211#16, fl 0b00000#5, 0x0001#16, 0x0101#16⟩ := by decide
/-- T-C10. -/
theorem test_popPsw :
    shows (run1 [0xF1#8] (st 0#8 0#16 0#16 0#16 0b00000#5 0x1FFE#16 [(0x1FFE, 0x5A#8), (0x1FFF, 0xFF#8)])) =
      some ⟨0x5A#8, 0#16, 0#16, 0#16, fl 0b11111#5, 0x2000#16, 0x0101#16⟩ := by decide
/-- T-C12: bits 5 and 3 are dropped. -/
theorem test_popPsw_drops_bits :
    shows (run1 [0xF1#8] (st 0#8 0#16 0#16 0#16 0b10010#5 0x1FFE#16 [(0x1FFE, 0x01#8), (0x1FFF, 0x28#8)])) =
      some ⟨0x01#8, 0#16, 0#16, 0#16, fl 0b00000#5, 0x2000#16, 0x0101#16⟩ := by decide
/-- V-C4, T-C13. -/
theorem test_dad_bc :
    shows (run1 [0x09#8] (st 0#8 0x2F7F#16 0#16 0x6025#16 0b10000#5 0#16 [])) =
      some ⟨0#8, 0x2F7F#16, 0#16, 0x8FA4#16, fl 0b00000#5, 0#16, 0x0101#16⟩ := by decide
/-- T-C14: DAD HL doubles HL; Sign and Zero stay. -/
theorem test_dad_hl :
    shows (run1 [0x29#8] (st 0#8 0#16 0#16 0x8001#16 0b00110#5 0#16 [])) =
      some ⟨0#8, 0#16, 0#16, 0x0002#16, fl 0b10110#5, 0#16, 0x0101#16⟩ := by decide
/-- T-C16. -/
theorem test_dadSp :
    shows (run1 [0x39#8] (st 0#8 0#16 0#16 0x0234#16 0b10000#5 0x1000#16 [])) =
      some ⟨0#8, 0#16, 0#16, 0x1234#16, fl 0b00000#5, 0x1000#16, 0x0101#16⟩ := by decide
/-- T-X4: `RP11_ARITH = refuse`. -/
theorem test_dadSp_refused :
    run1 [0x39#8] (withCfg (st 0#8 0#16 0#16 0#16 0b00000#5 0#16 []) { cfgT with rp11Arith := .refuse }) =
      .refused (.rp11Refused 0x39#8) := by rfl
/-- T-C17: Zero is not set by the zero result. -/
theorem test_inx_bc :
    shows (run1 [0x03#8] (st 0#8 0xFFFF#16 0#16 0#16 0b10000#5 0#16 [])) =
      some ⟨0#8, 0x0000#16, 0#16, 0#16, fl 0b10000#5, 0#16, 0x0101#16⟩ := by decide
/-- T-C19. -/
theorem test_inxSp :
    shows (run1 [0x33#8] (st 0#8 0#16 0#16 0#16 0b00000#5 0xFFFF#16 [])) =
      some ⟨0#8, 0#16, 0#16, 0#16, fl 0b00000#5, 0x0000#16, 0x0101#16⟩ := by decide
/-- T-C21. -/
theorem test_dcx_de :
    shows (run1 [0x1B#8] (st 0#8 0#16 0x1300#16 0#16 0b00000#5 0#16 [])) =
      some ⟨0#8, 0#16, 0x12FF#16, 0#16, fl 0b00000#5, 0#16, 0x0101#16⟩ := by decide
/-- T-C22. -/
theorem test_dcxSp :
    shows (run1 [0x3B#8] (st 0#8 0#16 0#16 0#16 0b00000#5 0x0000#16 [])) =
      some ⟨0#8, 0#16, 0#16, 0#16, fl 0b00000#5, 0xFFFF#16, 0x0101#16⟩ := by decide
/-- T-C23. -/
theorem test_xchg :
    shows (run1 [0xEB#8] (st 0#8 0#16 0x5678#16 0x1234#16 0b00000#5 0#16 [])) =
      some ⟨0#8, 0#16, 0x1234#16, 0x5678#16, fl 0b00000#5, 0#16, 0x0101#16⟩ := by decide
/-- T-C24: the stack wraps. -/
theorem test_xthl :
    shows (run1 [0xE3#8] (st 0#8 0#16 0#16 0x1234#16 0b00000#5 0xFFFF#16 [(0, 0xBB#8), (0xFFFF, 0xAA#8)])) =
      some ⟨0#8, 0#16, 0#16, 0xBBAA#16, fl 0b00000#5, 0xFFFF#16, 0x0101#16⟩ ∧
    bytesAt (run1 [0xE3#8] (st 0#8 0#16 0#16 0x1234#16 0b00000#5 0xFFFF#16 [(0, 0xBB#8), (0xFFFF, 0xAA#8)]))
      0xFFFF#16 0x0000#16 = some (0x34#8, 0x12#8) := by decide
/-- V-C8, T-C25. -/
theorem test_sphl :
    shows (run1 [0xF9#8] (st 0#8 0#16 0#16 0x8F83#16 0b00000#5 0x0C7F#16 [])) =
      some ⟨0#8, 0#16, 0#16, 0x8F83#16, fl 0b00000#5, 0x8F83#16, 0x0101#16⟩ := by decide

/-! ### Rotates -/

/-- V-D1, T-D1. -/
theorem test_rlc :
    shows (run1 [0x07#8] (st 0x88#8 0#16 0#16 0#16 0b01111#5 0#16 [])) =
      some ⟨0x11#8, 0#16, 0#16, 0#16, fl 0b11111#5, 0#16, 0x0101#16⟩ := by decide
/-- T-D4: the old Carry is no input. -/
theorem test_rrc :
    shows (run1 [0x0F#8] (st 0x88#8 0#16 0#16 0#16 0b10000#5 0#16 [])) =
      some ⟨0x44#8, 0#16, 0#16, 0#16, fl 0b00000#5, 0#16, 0x0101#16⟩ := by decide
/-- T-D8. -/
theorem test_ral :
    shows (run1 [0x17#8] (st 0x00#8 0#16 0#16 0#16 0b10000#5 0#16 [])) =
      some ⟨0x01#8, 0#16, 0#16, 0#16, fl 0b00000#5, 0#16, 0x0101#16⟩ := by decide
/-- V-D4, T-D10. -/
theorem test_rar :
    shows (run1 [0x1F#8] (st 0x88#8 0#16 0#16 0#16 0b10000#5 0#16 [])) =
      some ⟨0xC4#8, 0#16, 0#16, 0#16, fl 0b00000#5, 0#16, 0x0101#16⟩ := by decide

/-! ### Data transfer -/

/-- T-E1. -/
theorem test_mov_a_e :
    shows (run1 [0x7B#8] (st 0x11#8 0#16 0x0099#16 0#16 0b00000#5 0#16 [])) =
      some ⟨0x99#8, 0#16, 0x0099#16, 0#16, fl 0b00000#5, 0#16, 0x0101#16⟩ := by decide
/-- T-E4: the address is formed before H is written. -/
theorem test_mov_h_m :
    shows (run1 [0x66#8] (st 0#8 0#16 0#16 0x3010#16 0b00000#5 0#16 [(0x3010, 0x55#8)])) =
      some ⟨0#8, 0#16, 0#16, 0x5510#16, fl 0b00000#5, 0#16, 0x0101#16⟩ := by decide
/-- T-E9. -/
theorem test_stax_de :
    bytesAt (run1 [0x12#8] (st 0x42#8 0#16 0x4000#16 0#16 0b00000#5 0#16 [])) 0x4000#16 0x4001#16 =
      some (0x42#8, 0x00#8) := by decide
/-- T-E10. -/
theorem test_ldax_bc :
    shows (run1 [0x0A#8] (st 0#8 0x4001#16 0#16 0#16 0b00000#5 0#16 [(0x4001, 0x99#8)])) =
      some ⟨0x99#8, 0x4001#16, 0#16, 0#16, fl 0b00000#5, 0#16, 0x0101#16⟩ := by decide

/-! ### Accumulator -/

/-- V-E4, T-E20. -/
theorem test_add_b :
    shows (run1 [0x80#8] (st 0x62#8 0xD400#16 0#16 0#16 0b00000#5 0#16 [])) =
      some ⟨0x36#8, 0xD400#16, 0#16, 0#16, fl 0b10001#5, 0#16, 0x0101#16⟩ := by decide
/-- T-E22. -/
theorem test_add_m :
    shows (run1 [0x86#8] (st 0xFF#8 0#16 0#16 0x3010#16 0b00000#5 0#16 [(0x3010, 0x01#8)])) =
      some ⟨0x00#8, 0#16, 0#16, 0x3010#16, fl 0b11011#5, 0#16, 0x0101#16⟩ := by decide
/-- V-E5, T-E24. -/
theorem test_adc_c :
    shows (run1 [0x89#8] (st 0x5C#8 0x0023#16 0#16 0#16 0b10000#5 0#16 [])) =
      some ⟨0x80#8, 0x0023#16, 0#16, 0#16, fl 0b01100#5, 0#16, 0x0101#16⟩ := by decide
/-- T-E28. -/
theorem test_sub_b :
    shows (run1 [0x90#8] (st 0x00#8 0x0100#16 0#16 0#16 0b00000#5 0#16 [])) =
      some ⟨0xFF#8, 0x0100#16, 0#16, 0#16, fl 0b10101#5, 0#16, 0x0101#16⟩ := by decide
/-- T-E32: the subtrahend is 256. -/
theorem test_sbb_b :
    shows (run1 [0x98#8] (st 0x00#8 0xFF00#16 0#16 0#16 0b10000#5 0#16 [])) =
      some ⟨0x00#8, 0xFF00#16, 0#16, 0#16, fl 0b10011#5, 0#16, 0x0101#16⟩ := by decide
/-- T-E30. -/
theorem test_sbb_b_no_borrow :
    shows (run1 [0x98#8] (st 0x05#8 0x0200#16 0#16 0#16 0b10000#5 0#16 [])) =
      some ⟨0x02#8, 0x0200#16, 0#16, 0#16, fl 0b01000#5, 0#16, 0x0101#16⟩ := by decide
/-- V-E8, T-E35: AC is kept. -/
theorem test_ana_l :
    shows (run1 [0xA5#8] (st 0x85#8 0#16 0#16 0x008C#16 0b11000#5 0#16 [])) =
      some ⟨0x84#8, 0#16, 0#16, 0x008C#16, fl 0b01101#5, 0#16, 0x0101#16⟩ := by decide
/-- T-E37: `LOGIC_AC = chip`. -/
theorem test_ana_l_chip :
    acOf (run1 [0xA5#8] (withCfg (st 0x85#8 0#16 0#16 0x008C#16 0b00000#5 0#16 []) { cfgT with logicAc := .chip })) =
      some true := by decide
/-- T-E38, first half. -/
theorem test_xra_a :
    shows (run1 [0xAF#8] (st 0x5B#8 0#16 0#16 0#16 0b11000#5 0#16 [])) =
      some ⟨0x00#8, 0#16, 0#16, 0#16, fl 0b01011#5, 0#16, 0x0101#16⟩ := by decide
/-- T-E38, second half: `LOGIC_AC = chip`. -/
theorem test_xra_a_chip :
    acOf (run1 [0xAF#8] (withCfg (st 0x5B#8 0#16 0#16 0#16 0b11000#5 0#16 []) { cfgT with logicAc := .chip })) =
      some false := by decide
/-- T-E40. -/
theorem test_ora_b :
    shows (run1 [0xB0#8] (st 0x84#8 0x0F00#16 0#16 0#16 0b10000#5 0#16 [])) =
      some ⟨0x8F#8, 0x0F00#16, 0#16, 0#16, fl 0b00100#5, 0#16, 0x0101#16⟩ := by decide
/-- T-E45: Carry compares unsigned bytes. -/
theorem test_cmp_b :
    shows (run1 [0xB8#8] (st 0x01#8 0xFF00#16 0#16 0#16 0b00000#5 0#16 [])) =
      some ⟨0x01#8, 0xFF00#16, 0#16, 0#16, fl 0b10000#5, 0#16, 0x0101#16⟩ := by decide
/-- T-E47. -/
theorem test_cmp_m :
    shows (run1 [0xBE#8] (st 0x7F#8 0#16 0#16 0x3010#16 0b00000#5 0#16 [(0x3010, 0x80#8)])) =
      some ⟨0x7F#8, 0#16, 0#16, 0x3010#16, fl 0b11101#5, 0#16, 0x0101#16⟩ := by decide

/-! ### Direct addressing -/

/-- V-E12, T-E50. -/
theorem test_sta :
    bytesAt (run1 [0x32#8, 0x40#8, 0x41#8] (st 0x16#8 0#16 0#16 0#16 0b00000#5 0#16 [])) 0x4140#16 0x4041#16 =
      some (0x16#8, 0x00#8) := by decide
/-- T-E51: the instruction overwrites its own second byte after it was fetched. -/
theorem test_sta_over_itself :
    bytesAt (run1 [0x32#8, 0x01#8, 0x01#8] (st 0x99#8 0#16 0#16 0#16 0b00000#5 0#16 [])) 0x0101#16 0x0102#16 =
      some (0x99#8, 0x01#8) := by decide
/-- V-E13, T-E52. -/
theorem test_lda :
    shows (run1 [0x3A#8, 0x40#8, 0x41#8] (st 0#8 0#16 0#16 0#16 0b00000#5 0#16 [(0x4140, 0x16#8)])) =
      some ⟨0x16#8, 0#16, 0#16, 0#16, fl 0b00000#5, 0#16, 0x0103#16⟩ := by decide
/-- T-E54: the address wraps. -/
theorem test_shld :
    bytesAt (run1 [0x22#8, 0xFF#8, 0xFF#8] (st 0#8 0#16 0#16 0x2F2C#16 0b00000#5 0#16 [])) 0xFFFF#16 0x0000#16 =
      some (0x2C#8, 0x2F#8) := by decide
/-- T-E56: the address wraps. -/
theorem test_lhld :
    shows (run1 [0x2A#8, 0xFF#8, 0xFF#8] (st 0#8 0#16 0#16 0#16 0b00000#5 0#16 [(0, 0x2F#8), (0xFFFF, 0x2C#8)])) =
      some ⟨0#8, 0#16, 0#16, 0x2F2C#16, fl 0b00000#5, 0#16, 0x0103#16⟩ := by decide

/-! ### Immediates -/

/-- V-F1: Byte 2 into E, Byte 3 into D (C1). -/
theorem test_lxi_de :
    shows (run1 [0x11#8, 0x7F#8, 0x7E#8] (st 0#8 0#16 0#16 0#16 0b00000#5 0#16 [])) =
      some ⟨0#8, 0#16, 0x7E7F#16, 0#16, fl 0b00000#5, 0#16, 0x0103#16⟩ := by decide
/-- T-F3, first half. -/
theorem test_lxiSp :
    shows (run1 [0x31#8, 0x00#8, 0x01#8] (st 0#8 0#16 0#16 0#16 0b00000#5 0#16 [])) =
      some ⟨0#8, 0#16, 0#16, 0#16, fl 0b00000#5, 0x0100#16, 0x0103#16⟩ := by decide
/-- T-F3, second half: `LXI_SP_SWAPPED = true`. -/
theorem test_lxiSp_swapped :
    shows (run1 [0x31#8, 0x00#8, 0x01#8]
      (withCfg (st 0#8 0#16 0#16 0#16 0b00000#5 0#16 []) { cfgT with lxiSpSwapped := true })) =
      some ⟨0#8, 0#16, 0#16, 0#16, fl 0b00000#5, 0x0001#16, 0x0103#16⟩ := by decide
/-- T-F4. -/
theorem test_mvi_m :
    bytesAt (run1 [0x36#8, 0x5A#8] (st 0#8 0#16 0#16 0x3010#16 0b00000#5 0#16 [])) 0x3010#16 0x1030#16 =
      some (0x5A#8, 0x00#8) := by decide
/-- T-F5: no status bit. -/
theorem test_mvi_a :
    shows (run1 [0x3E#8, 0x00#8] (st 0x55#8 0#16 0#16 0#16 0b00000#5 0#16 [])) =
      some ⟨0x00#8, 0#16, 0#16, 0#16, fl 0b00000#5, 0#16, 0x0102#16⟩ := by decide
/-- V-F3, T-F6. -/
theorem test_adi :
    shows (run1 [0xC6#8, 0x80#8] (st 0xF0#8 0#16 0#16 0#16 0b01111#5 0#16 [])) =
      some ⟨0x70#8, 0#16, 0#16, 0#16, fl 0b10000#5, 0#16, 0x0102#16⟩ := by decide
/-- V-F4, T-F7. -/
theorem test_aci :
    shows (run1 [0xCE#8, 0x2C#8] (st 0xF0#8 0#16 0#16 0#16 0b10000#5 0#16 [])) =
      some ⟨0x1D#8, 0#16, 0#16, 0#16, fl 0b10001#5, 0#16, 0x0102#16⟩ := by decide
/-- V-F5, T-F9: Carry is 0 (C3). -/
theorem test_sui :
    shows (run1 [0xD6#8, 0x04#8] (st 0x0A#8 0#16 0#16 0#16 0b00000#5 0#16 [])) =
      some ⟨0x06#8, 0#16, 0#16, 0#16, fl 0b01001#5, 0#16, 0x0102#16⟩ := by decide
/-- T-F13. -/
theorem test_sbi :
    shows (run1 [0xDE#8, 0xFF#8] (st 0x00#8 0#16 0#16 0#16 0b10000#5 0#16 [])) =
      some ⟨0x00#8, 0#16, 0#16, 0#16, fl 0b10011#5, 0#16, 0x0102#16⟩ := by decide
/-- V-F7, T-F15. -/
theorem test_ani :
    shows (run1 [0xE6#8, 0x3B#8] (st 0xEE#8 0#16 0#16 0#16 0b10000#5 0#16 [])) =
      some ⟨0x2A#8, 0#16, 0#16, 0#16, fl 0b00000#5, 0#16, 0x0102#16⟩ := by decide
/-- V-F8, T-F16. -/
theorem test_xri :
    shows (run1 [0xEE#8, 0x7F#8] (st 0xB1#8 0#16 0#16 0#16 0b10000#5 0#16 [])) =
      some ⟨0xCE#8, 0#16, 0#16, 0#16, fl 0b00100#5, 0#16, 0x0102#16⟩ := by decide
/-- V-F9, T-F17. -/
theorem test_ori :
    shows (run1 [0xF6#8, 0x01#8] (st 0x84#8 0#16 0#16 0#16 0b10000#5 0#16 [])) =
      some ⟨0x85#8, 0#16, 0#16, 0#16, fl 0b00100#5, 0#16, 0x0102#16⟩ := by decide
/-- T-F19. -/
theorem test_cpi :
    shows (run1 [0xFE#8, 0x44#8] (st 0x43#8 0#16 0#16 0#16 0b00000#5 0#16 [])) =
      some ⟨0x43#8, 0#16, 0#16, 0#16, fl 0b10101#5, 0#16, 0x0102#16⟩ := by decide

/-! ### Branches -/

/-- V-G1, T-G1. -/
theorem test_pchl :
    shows (run1 [0xE9#8] (st 0#8 0#16 0#16 0xB8D6#16 0b00000#5 0#16 [])) =
      some ⟨0#8, 0#16, 0#16, 0xB8D6#16, fl 0b00000#5, 0#16, 0xB8D6#16⟩ := by decide
/-- T-G4: the third byte is fetched from 0000. -/
theorem test_jmp_wraps :
    shows (run1 [0xC3#8, 0x34#8, 0x12#8] (State.withPc (st 0#8 0#16 0#16 0#16 0b00000#5 0#16 []) 0xFFFE#16)) =
      some ⟨0#8, 0#16, 0#16, 0#16, fl 0b00000#5, 0#16, 0x1234#16⟩ := by decide
/-- T-G5. -/
theorem test_jc_taken :
    shows (run1 [0xDA#8, 0x13#8, 0x00#8] (st 0#8 0#16 0#16 0#16 0b10000#5 0#16 [])) =
      some ⟨0#8, 0#16, 0#16, 0#16, fl 0b10000#5, 0#16, 0x0013#16⟩ := by decide
/-- T-G7: pc wraps. -/
theorem test_jc_not_taken :
    shows (run1 [0xDA#8, 0x34#8, 0x12#8] (State.withPc (st 0#8 0#16 0#16 0#16 0b00000#5 0#16 []) 0xFFFE#16)) =
      some ⟨0#8, 0#16, 0#16, 0#16, fl 0b00000#5, 0#16, 0x0001#16⟩ := by decide
/-- T-G8. -/
theorem test_jnc_taken :
    shows (run1 [0xD2#8, 0x13#8, 0x00#8] (st 0#8 0#16 0#16 0#16 0b00000#5 0#16 [])) =
      some ⟨0#8, 0#16, 0#16, 0#16, fl 0b00000#5, 0#16, 0x0013#16⟩ := by decide
/-- T-G9. -/
theorem test_jnc_not_taken :
    shows (run1 [0xD2#8, 0x13#8, 0x00#8] (st 0#8 0#16 0#16 0#16 0b10000#5 0#16 [])) =
      some ⟨0#8, 0#16, 0#16, 0#16, fl 0b10000#5, 0#16, 0x0103#16⟩ := by decide
/-- T-G10. -/
theorem test_jz_taken :
    shows (run1 [0xCA#8, 0x13#8, 0x00#8] (st 0#8 0#16 0#16 0#16 0b00010#5 0#16 [])) =
      some ⟨0#8, 0#16, 0#16, 0#16, fl 0b00010#5, 0#16, 0x0013#16⟩ := by decide
/-- T-G11. -/
theorem test_jz_not_taken :
    shows (run1 [0xCA#8, 0x13#8, 0x00#8] (st 0#8 0#16 0#16 0#16 0b10000#5 0#16 [])) =
      some ⟨0#8, 0#16, 0#16, 0#16, fl 0b10000#5, 0#16, 0x0103#16⟩ := by decide

/-! ### Refused and stuck -/

/-- Memory with a read-only stretch 0000 to 00FF and a writable one 0100 to 01FF; nothing else is present. -/
def cfgSmall : Config :=
  { cfgT with memMap := [{ base := 0, size := 0x100, writable := false }, { base := 0x100, size := 0x100, writable := true }] }

/-- A state on that memory. -/
def small (sp hl pc : Word) (bs : List Byte) : State :=
  (withCfg (st 0#8 0#16 0#16 hl 0b00000#5 sp []) cfgSmall).withPc pc |>.withMem (placeBytes { cells := [] } pc bs)

/-- T-X2. -/
theorem test_refused_76 : step (small 0#16 0#16 0x0100#16 [0x76#8]) = .refused (.unspecifiedByte 0x76#8) := by rfl
/-- T-X5. -/
theorem test_stuck_at_absent_pc : step (small 0#16 0#16 0x0200#16 []) = .fault (.stuckFetch 0x0200#16) := by rfl
/-- T-X6: `sp-1` is writable, `sp-2` is not. -/
theorem test_stuck_push : step (small 0x0101#16 0#16 0x0100#16 [0xC5#8]) = .fault (.stuckWrite 0x00FF#16) := by rfl
/-- T-X7: the jump would not be taken. -/
theorem test_stuck_jz :
    step (small 0#16 0#16 0x01FE#16 [0xCA#8, 0x13#8]) = .fault (.stuckFetch 0x0200#16) := by rfl
/-- T-X8: present but not writable. -/
theorem test_stuck_mov_m_a : step (small 0#16 0x00FF#16 0x0100#16 [0x77#8]) = .fault (.stuckWrite 0x00FF#16) := by rfl
/-- T-X9. -/
theorem test_run_over :
    step (withCfg (st 0#8 0#16 0#16 0#16 0b00000#5 0#16 []) { cfgT with endPc := some 0x0100#16 }) = .fault .runOver := by
  rfl

/-! ### Witnesses: for each statement with hypotheses, states and operands that meet them, at the ends of their ranges -/

/-- A state on full memory at a given pc and sp, with bytes at pc. -/
def full (sp pc : Word) (bs : List Byte) : State :=
  (st 0x80#8 0xFFFF#16 0x0000#16 0xFFFF#16 0b10101#5 sp []).withPc pc |>.withMem (placeBytes { cells := [] } pc bs)

theorem full_isFull (sp pc : Word) (bs : List Byte) : fullMemory (full sp pc bs).cfg := by
  intro a
  have := a.isLt
  simp [full, st, cfgT, Config.standard, memWritable, regionCovers]
  omega

/-- The Stack Pointer at 0001, so that a push wraps; at FFFF, so that a pop wraps. -/
def sWrap : State := full 0x0001#16 0x0000#16 []
def sTop : State := full 0xFFFF#16 0x0000#16 []
/-- The Stack Pointer at the lowest value for a push, and at the highest for a pop, on the small memory. -/
def sLow : State := small 0x0102#16 0x0000#16 0x0000#16 []
def sHigh : State := small 0x01FE#16 0x0000#16 0x0000#16 []
/-- The same state with A in the high half of PSW. -/
def aHigh (s : State) : State := withCfg s { s.cfg with pswFlagsHigh := false }

theorem witness_DecodeOfEncodeGivesInstruction : (Instr.mov .m .a).wellFormed = true ∧ (Instr.jz 0xFFFF#16).wellFormed = true := by
  decide
theorem witness_DecodedBytesAreTheEncoding : decode [0xC3#8, 0x00#8, 0x01#8, 0x76#8] = .instr (.jmp 0x0100#16) [0x76#8] := by
  decide
/-- The two clauses with hypotheses: M as source beside another destination, and a value of ccc without a meaning. -/
theorem witness_FormatsWithFieldsDecode :
    ((0b111#3, Reg8.a) ∈ regCodes ∧ (0b110#3, Reg8.m) ∈ regCodes ∧ ¬ (Reg8.a = .m ∧ Reg8.m = .m)) ∧
    (0b000#3 : BitVec 3) ≠ 0b011#3 ∧ (0b000#3 : BitVec 3) ≠ 0b010#3 ∧ (0b000#3 : BitVec 3) ≠ 0b001#3 := by decide
theorem witness_StepRunsTheDecodedInstruction :
    (full 0#16 0xFFFE#16 [0xC3#8, 0x34#8, 0x12#8]).cfg.endPc ≠ some (full 0#16 0xFFFE#16 [0xC3#8, 0x34#8, 0x12#8]).pc ∧
    decode [(full 0#16 0xFFFE#16 [0xC3#8, 0x34#8, 0x12#8]).mem.read 0xFFFE#16,
      (full 0#16 0xFFFE#16 [0xC3#8, 0x34#8, 0x12#8]).mem.read 0xFFFF#16,
      (full 0#16 0xFFFE#16 [0xC3#8, 0x34#8, 0x12#8]).mem.read 0x0000#16] = .instr (.jmp 0x1234#16) [] ∧
    ∀ k, k < (encode (.jmp 0x1234#16)).length →
      memPresent (full 0#16 0xFFFE#16 [0xC3#8, 0x34#8, 0x12#8]).cfg (0xFFFE#16 + BitVec.ofNat 16 k) = true := by decide
/-- Clause 1, pc at the first absent address; clause 2 with the last byte, and with the second byte, absent. -/
theorem witness_StepIsStuckOnAnAbsentInstructionByte :
    memPresent (small 0#16 0#16 0x0200#16 []).cfg 0x0200#16 = false ∧
    (instrLength ((small 0#16 0#16 0x01FE#16 [0xCA#8, 0x13#8]).mem.read 0x01FE#16) = some 3 ∧
      (∀ j, j < 2 → memPresent cfgSmall (0x01FE#16 + BitVec.ofNat 16 j) = true) ∧ memPresent cfgSmall 0x0200#16 = false) ∧
    instrLength ((small 0#16 0#16 0x01FF#16 [0x3E#8]).mem.read 0x01FF#16) = some 2 ∧
      memPresent cfgSmall 0x01FF#16 = true := by decide
theorem witness_StepRefusesUnspecifiedBytes :
    (small 0#16 0#16 0x01FF#16 [0xFF#8]).cfg.endPc ≠ some 0x01FF#16 ∧
    memPresent (small 0#16 0#16 0x01FF#16 [0xFF#8]).cfg 0x01FF#16 = true ∧
    (small 0#16 0#16 0x01FF#16 [0xFF#8]).mem.read 0x01FF#16 ∈ unspecifiedBytes := by decide
theorem witness_NoStepAtEndPc :
    (withCfg (full 0#16 0xFFFF#16 [0xC9#8]) { cfgT with endPc := some 0xFFFF#16 }).final := by
  rfl
theorem witness_PlacedWordIsRunNext :
    decodeTableWord 24 0x1234C3 = some (.jmp 0x1234#16) ∧ State.reset.cfg.endPc ≠ some State.reset.pc ∧
    ∀ k, k < (encode (.jmp 0x1234#16)).length → memPresent State.reset.cfg (State.reset.pc + BitVec.ofNat 16 k) = true := by
  decide
theorem witness_StepKeepsMemoryCanonicalAndParameters :
    (full 0#16 0x0100#16 [0x12#8]).mem.wf ∧ ∃ t, step (full 0#16 0x0100#16 [0x12#8]) = .next t := ⟨by decide, _, rfl⟩
/-- A run with a store at the first writable address; the address just below it is not writable. -/
theorem witness_NoRunChangesUnwritableMemory :
    (∃ t, step (small 0#16 0x0100#16 0x0101#16 [0x77#8]) = .next t ∧ Reaches (small 0#16 0x0100#16 0x0101#16 [0x77#8]) t) ∧
    memWritable cfgSmall 0x00FF#16 = false :=
  ⟨⟨_, rfl, .step _ _ _ (.refl _) rfl⟩, by decide⟩
theorem witness_EveryStoreStaysInItsBytes :
    storedAt .xthl (full 0xFFFF#16 0#16 []) = [0xFFFF#16, 0x0000#16] ∧ ∃ t, exec .xthl (full 0xFFFF#16 0#16 []) = .next t :=
  ⟨by decide, _, rfl⟩
/-- One instruction for each clause. -/
theorem witness_StatusBitsAreWrittenAsListed :
    (statusWritten .sphl = .none ∧ ∃ t, exec .sphl (full 0#16 0#16 []) = .next t) ∧
    (statusWritten .rar = .carry ∧ ∃ t, exec .rar (full 0#16 0#16 []) = .next t) ∧
    statusWritten (.ani 0x0F#8) = .allButAux ∧ (full 0#16 0#16 []).cfg.logicAc = .unaffected ∧
      ∃ t, exec (.ani 0x0F#8) (full 0#16 0#16 []) = .next t :=
  ⟨⟨rfl, _, rfl⟩, ⟨rfl, _, rfl⟩, rfl, rfl, _, rfl⟩
theorem witness_PcAdvancesByTheLength :
    isBranch (.adi 0xFF#8) = false ∧ ∃ t, exec (.adi 0xFF#8) (full 0#16 0xFFFF#16 []) = .next t := ⟨rfl, _, rfl⟩
theorem witness_StackPointerWriters :
    writesSp .xthl = false ∧ ∃ t, exec .xthl (full 0xFFFF#16 0#16 []) = .next t := ⟨rfl, _, rfl⟩
theorem witness_OnlyPushPswReadsAux :
    Instr.ana .m ≠ .pushPsw ∧
    SameButAux (full 0#16 0#16 []) ((full 0#16 0#16 []).withFlags (fl 0b11101#5)) ∧
    (full 0#16 0#16 []).flags.ac ≠ ((full 0#16 0#16 []).withFlags (fl 0b11101#5)).flags.ac ∧
    ∃ t, exec (.ana .m) (full 0#16 0#16 []) = .next t :=
  ⟨by decide, ⟨rfl, rfl, rfl, rfl, rfl, rfl⟩, by decide, _, rfl⟩
theorem witness_EveryInstructionCompletesOnFullMemory :
    Instr.dadSp.wellFormed = true ∧ fullMemory (full 0#16 0#16 []).cfg ∧ (full 0#16 0#16 []).cfg.rp11Arith = .sp :=
  ⟨rfl, full_isFull _ _ _, rfl⟩
/-- Both sides of the equivalence occur: a state that goes on, and reset, whose first byte is unspecified. -/
theorem witness_OnlyUnspecifiedBytesStopFullMemory :
    fullMemory (full 0#16 0#16 [0xF5#8]).cfg ∧ (full 0#16 0#16 [0xF5#8]).cfg.rp11Arith = .sp ∧
    (∃ t, step (full 0#16 0#16 [0xF5#8]) = .next t) ∧ (full 0#16 0#16 []).mem.read 0#16 ∈ unspecifiedBytes :=
  ⟨full_isFull _ _ _, rfl, ⟨_, rfl⟩, by decide⟩

theorem witness_PushStoresThePair :
    (memWritable sLow.cfg (sLow.sp - 1#16) = true ∧ memWritable sLow.cfg (sLow.sp - 2#16) = true) ∧
    memWritable sWrap.cfg (sWrap.sp - 1#16) = true ∧ memWritable sWrap.cfg (sWrap.sp - 2#16) = true := by decide
/-- Both values of `PSW_FLAGS_HIGH`. -/
theorem witness_PushPswStoresStatusAndA :
    (memWritable sWrap.cfg (sWrap.sp - 1#16) = true ∧ memWritable sWrap.cfg (sWrap.sp - 2#16) = true ∧
      sWrap.cfg.pswFlagsHigh = true) ∧
    memWritable (aHigh sLow).cfg ((aHigh sLow).sp - 1#16) = true ∧
      memWritable (aHigh sLow).cfg ((aHigh sLow).sp - 2#16) = true ∧ (aHigh sLow).cfg.pswFlagsHigh = false := by decide
theorem witness_PopLoadsThePair :
    (memPresent sHigh.cfg sHigh.sp = true ∧ memPresent sHigh.cfg (sHigh.sp + 1#16) = true) ∧
    memPresent sTop.cfg sTop.sp = true ∧ memPresent sTop.cfg (sTop.sp + 1#16) = true := by decide
/-- Both values of `PSW_FLAGS_HIGH`. -/
theorem witness_PopPswLoadsStatusAndA :
    (memPresent sTop.cfg sTop.sp = true ∧ memPresent sTop.cfg (sTop.sp + 1#16) = true ∧ sTop.cfg.pswFlagsHigh = true) ∧
    memPresent (aHigh sHigh).cfg (aHigh sHigh).sp = true ∧ memPresent (aHigh sHigh).cfg ((aHigh sHigh).sp + 1#16) = true ∧
      (aHigh sHigh).cfg.pswFlagsHigh = false := by decide
theorem witness_PopPswUndoesPushPsw :
    memWritable sLow.cfg (sLow.sp - 1#16) = true ∧ memWritable sLow.cfg (sLow.sp - 2#16) = true := by decide
theorem witness_PopOfAPushedPairCopiesIt :
    memWritable sWrap.cfg (sWrap.sp - 1#16) = true ∧ memWritable sWrap.cfg (sWrap.sp - 2#16) = true := by decide
/-- The second clause's hypothesis; the first clause has none. -/
theorem witness_DadAddsIntoHl : (full 0xFFFF#16 0#16 []).cfg.rp11Arith = .sp := by decide
theorem witness_InxAndDcxCountInSp : (full 0xFFFF#16 0#16 []).cfg.rp11Arith = .sp := by decide
theorem witness_PairCode11IsRefusedWhenConfigured :
    (withCfg (full 0#16 0#16 []) { cfgT with rp11Arith := .refuse }).cfg.rp11Arith = .refuse := by decide
theorem witness_XthlExchangesHlAndStack :
    memPresent sTop.cfg sTop.sp = true ∧ memPresent sTop.cfg (sTop.sp + 1#16) = true ∧
    memWritable sTop.cfg sTop.sp = true ∧ memWritable sTop.cfg (sTop.sp + 1#16) = true := by decide

/-- Clause 1 with M read at the last present address; clause 2 with M written at the first writable one. -/
theorem witness_MovMovesOneByte :
    (Reg8.a ≠ .m ∧ Readable (small 0#16 0x01FF#16 0#16 []) .m) ∧
    Reg8.a ≠ .m ∧ Writable (small 0#16 0x0100#16 0#16 []) .m :=
  ⟨⟨by decide, fun _ => by decide⟩, by decide, fun _ => by decide⟩
theorem witness_StaxStoresTheAccumulator :
    memWritable (full 0#16 0#16 []).cfg (pairValue (full 0#16 0#16 []) .bc) = true ∧
    memWritable (full 0#16 0#16 []).cfg (pairValue (full 0#16 0#16 []) .de) = true := by decide
theorem witness_LdaxLoadsTheAccumulator :
    memPresent (full 0#16 0#16 []).cfg (pairValue (full 0#16 0#16 []) .bc) = true ∧
    memPresent (full 0#16 0#16 []).cfg (pairValue (full 0#16 0#16 []) .de) = true := by decide

/-- The operand M at the last present address; every other operand is readable without a hypothesis on the state. -/
theorem witness_AdditionsInIntegers :
    Readable (small 0#16 0x01FF#16 0#16 []) .m ∧ Readable (small 0#16 0xFFFF#16 0#16 []) .a :=
  ⟨fun _ => by decide, fun h => by cases h⟩
theorem witness_SubtractionsInIntegers :
    Readable (small 0#16 0x0000#16 0#16 []) .m ∧ Readable (small 0#16 0xFFFF#16 0#16 []) .b :=
  ⟨fun _ => by decide, fun h => by cases h⟩
theorem witness_ComparesLeaveTheRegisters :
    Readable (small 0#16 0x01FF#16 0#16 []) .m ∧ Readable (small 0#16 0xFFFF#16 0#16 []) .l :=
  ⟨fun _ => by decide, fun h => by cases h⟩
/-- M readable, and both values of `LOGIC_AC`. -/
theorem witness_LogicBitByBit :
    Readable (small 0#16 0x01FF#16 0#16 []) .m ∧ (small 0#16 0#16 0#16 []).cfg.logicAc = .unaffected ∧
    (withCfg (small 0#16 0#16 0#16 []) { cfgSmall with logicAc := .chip }).cfg.logicAc = .chip :=
  ⟨fun _ => by decide, by decide, by decide⟩
/-- Reset with Carry 1, HL at 3010 and the byte FF there. -/
def borrowed : State :=
  ((State.reset.withCy true).withPair .hl 0x3010#16).withMem { cells := [(0x3010, 0xFF#8)] }

/-- Borrow 0: CMP M and SUI. Borrow 1: SBB M and SBI, from states that share A, Carry and `AUX_SUB` (the free value) and
differ in registers and memory. -/
theorem witness_AuxSubDependsOnTheOperandsAlone :
    (subtrahend (.cmp .m) State.reset = some (0x00#8, false) ∧
      subtrahend (.sui 0x00#8) (State.reset.withCy true) = some (0x00#8, false) ∧
      (∃ t, exec (.cmp .m) State.reset = .next t) ∧ ∃ t2, exec (.sui 0x00#8) (State.reset.withCy true) = .next t2) ∧
    State.reset.cfg.auxSub = .uninterpreted ∧ borrowed.cfg.auxSub = State.reset.cfg.auxSub ∧
    borrowed.regs.a = State.reset.regs.a ∧
    subtrahend (.sbb .m) borrowed = some (0xFF#8, true) ∧
    subtrahend (.sbi 0xFF#8) (State.reset.withCy true) = some (0xFF#8, true) ∧
    (∃ t, exec (.sbb .m) borrowed = .next t) ∧ ∃ t2, exec (.sbi 0xFF#8) (State.reset.withCy true) = .next t2 :=
  ⟨⟨by decide, by decide, ⟨_, rfl⟩, _, rfl⟩, by decide, by decide, by decide, by decide, by decide, ⟨_, rfl⟩, _, rfl⟩
theorem witness_CarryChainsAreSixteenBit : (st 0xFF#8 0#16 0#16 0#16 0b00000#5 0#16 []).regs.a = 0xFF#8 := by decide

theorem witness_StaStoresTheAccumulator : memWritable sTop.cfg 0xFFFF#16 = true ∧ memWritable sLow.cfg 0x0100#16 = true := by
  decide
theorem witness_LdaLoadsTheAccumulator : memPresent sTop.cfg 0x0000#16 = true ∧ memPresent sLow.cfg 0x01FF#16 = true := by
  decide
theorem witness_ShldStoresLThenH :
    memWritable sTop.cfg 0xFFFF#16 = true ∧ memWritable sTop.cfg (0xFFFF#16 + 1#16) = true := by decide
theorem witness_LhldLoadsLThenH :
    memPresent sTop.cfg 0xFFFF#16 = true ∧ memPresent sTop.cfg (0xFFFF#16 + 1#16) = true := by decide
/-- Both values of `LXI_SP_SWAPPED`. -/
theorem witness_LxiLoadsSixteenBits :
    sTop.cfg.lxiSpSwapped = false ∧ (withCfg sTop { sTop.cfg with lxiSpSwapped := true }).cfg.lxiSpSwapped = true := by decide
theorem witness_MviMovesTheDataByte : Reg8.a ≠ .m ∧ Writable (small 0#16 0x01FF#16 0#16 []) .m :=
  ⟨by decide, fun _ => by decide⟩
theorem witness_JcAndJncTestCarry :
    (st 0#8 0#16 0#16 0#16 0b10000#5 0#16 []).flags.cy = true ∧ (st 0#8 0#16 0#16 0#16 0b01111#5 0#16 []).flags.cy = false := by
  decide
theorem witness_JzTestsZero :
    (st 0#8 0#16 0#16 0#16 0b00010#5 0#16 []).flags.z = true ∧ (st 0#8 0#16 0#16 0#16 0b11101#5 0#16 []).flags.z = false := by
  decide

/-- A machine with no memory at all. -/
def bare : State := withCfg (full 0x0000#16 0x0000#16 []) { cfgT with memMap := [] }

/-- M and an address operand at the first absent address; X absent; a two-byte read whose second byte alone is absent; the
Stack Pointer with its first byte alone, and with its second byte alone, absent. -/
theorem witness_ReadsOfAbsentMemoryAreStuck :
    memPresent cfgSmall (pairValue (small 0#16 0x0200#16 0#16 []) .hl) = false ∧
    memPresent bare.cfg (xValue bare .bc) = false ∧ memPresent bare.cfg (xValue bare .de) = false ∧
    memPresent sLow.cfg 0x0200#16 = false ∧
    (memPresent sLow.cfg 0x01FF#16 = true ∧ memPresent sLow.cfg (0x01FF#16 + 1#16) = false) ∧
    (memPresent cfgSmall (small 0xFFFF#16 0#16 0#16 []).sp = false ∧
      memPresent cfgSmall ((small 0xFFFF#16 0#16 0#16 []).sp + 1#16) = true) ∧
    memPresent cfgSmall (small 0x01FF#16 0#16 0#16 []).sp = true ∧
      memPresent cfgSmall ((small 0x01FF#16 0#16 0#16 []).sp + 1#16) = false := by decide
/-- M at the last read-only address; X and an address operand not writable; two-byte stores, pushes and XTHL of which one
byte alone is not writable, the first and the second. -/
theorem witness_WritesToUnwritableMemoryAreStuck :
    memWritable cfgSmall (pairValue (small 0#16 0x00FF#16 0#16 []) .hl) = false ∧
    memWritable bare.cfg (xValue bare .bc) = false ∧ memWritable sLow.cfg 0x0200#16 = false ∧
    (memWritable sLow.cfg 0x01FF#16 = true ∧ memWritable sLow.cfg (0x01FF#16 + 1#16) = false) ∧
    (memWritable cfgSmall ((small 0x0201#16 0#16 0#16 []).sp - 1#16) = false ∧
      memWritable cfgSmall ((small 0x0201#16 0#16 0#16 []).sp - 2#16) = true) ∧
    (memWritable cfgSmall ((small 0x0101#16 0#16 0#16 []).sp - 1#16) = true ∧
      memWritable cfgSmall ((small 0x0101#16 0#16 0#16 []).sp - 2#16) = false) ∧
    (memPresent cfgSmall (small 0x00FF#16 0#16 0#16 []).sp = true ∧
      memPresent cfgSmall ((small 0x00FF#16 0#16 0#16 []).sp + 1#16) = true ∧
      memWritable cfgSmall (small 0x00FF#16 0#16 0#16 []).sp = false ∧
      memWritable cfgSmall ((small 0x00FF#16 0#16 0#16 []).sp + 1#16) = true) := by decide

end Sys2Proof.Tests
end

section
/-! PROOFS. The state: register pairs as views of the registers (spec/10_state.md R22). -/

namespace Sys2Proof.Proofs

open Sys2Proof.Machine Sys2Proof.Claims

/-- A pair's value is determined by its two registers alone, the first as the most significant half (R22). -/
theorem toNat_pairValue (s : State) (rp : Pair) :
    (pairValue s rp).toNat = (pairHalves s rp).1.toNat * 256 + (pairHalves s rp).2.toNat := by
  cases rp with
  | bc => exact toNat_join s.regs.b s.regs.c
  | de => exact toNat_join s.regs.d s.regs.e
  | hl => exact toNat_join s.regs.h s.regs.l

/-- Settles O22: each clause is `toNat_pairValue`, of the state itself or of the state with one register written, whose
halves are the byte written and the register kept. -/
theorem pairsAreViewsOfTheRegisters : Obligations.PairsAreViewsOfTheRegisters := by
  unfold Obligations.PairsAreViewsOfTheRegisters
  intro s
  refine ⟨toNat_pairValue s .bc, toNat_pairValue s .de, toNat_pairValue s .hl, fun v => ?_⟩
  have written (r : Regs) (rp : Pair) := toNat_pairValue (s.withRegs r) rp
  exact ⟨written _ .bc, written _ .bc, written _ .de, written _ .de, written _ .hl, written _ .hl⟩

end Sys2Proof.Proofs
end

section
/-! PROOFS. The decoder on the formats with fields (spec/30_encoding.md R73, R75 to R79): what Byte 1 says with its fields
left as variables, and what `decode` answers for each of the three forms. -/

namespace Sys2Proof.Proofs

open Sys2Proof.Machine Sys2Proof.Claims

/-! ### The fields of a byte written as three parts, at any widths -/

theorem highField_append {u v w : Nat} (a : BitVec u) (b : BitVec v) (c : BitVec w) :
    (a ++ b ++ c).extractLsb' (v + w) u = a := by
  rw [BitVec.extractLsb'_append_eq_of_le (Nat.le_add_left w v), Nat.add_sub_cancel]
  exact BitVec.extractLsb'_append_eq_left

theorem middleField_append {u v w : Nat} (a : BitVec u) (b : BitVec v) (c : BitVec w) :
    (a ++ b ++ c).extractLsb' w v = b := by
  rw [BitVec.extractLsb'_append_eq_of_le (Nat.le_refl w), Nat.sub_self]
  exact BitVec.extractLsb'_append_eq_right

/-! ### The code tables as the decoder reads them (R21, R23) -/

theorem decodeReg_of_mem_regCodes : ∀ p ∈ regCodes, decodeReg p.1 = p.2 := by decide

theorem decodePair_of_mem_pairCodes {α : Type} (f : Pair → α) (code11 : α) :
    ∀ p ∈ pairCodes, decodePair p.1 f code11 = f p.2 := by
  simp [pairCodes, decodePair]

/-! ### What Byte 1 says -/

/-- A byte of group 01 is `0x76` only where both of its codes are 110 (R83). -/
theorem codes_of_append_eq_0x76 {x y : BitVec 3} (h : (0b01#2 ++ x ++ y : Byte) = 0x76#8) :
    x = 0b110#3 ∧ y = 0b110#3 := by
  constructor
  · calc
      x = (0b01#2 ++ x ++ y : Byte).extractLsb' 3 3 := (middleField_append _ x y).symm
      _ = 0b110#3 := by rw [h]; rfl
  · calc
      y = (0b01#2 ++ x ++ y : Byte).extractLsb' 0 3 := BitVec.extractLsb'_append_eq_right.symm
      _ = 0b110#3 := by rw [h]; rfl

/-- Format DS (R73): every byte of group 01 but the one that R83 leaves out. -/
theorem decodeFirst_mov (x y : BitVec 3) (h : ¬ (decodeReg x = .m ∧ decodeReg y = .m)) :
    decodeFirst (0b01#2 ++ x ++ y) = some (.one (.mov (decodeReg x) (decodeReg y))) := by
  have hne : (0b01#2 ++ x ++ y : Byte) ≠ 0x76#8 := by
    intro heq
    obtain ⟨rfl, rfl⟩ := codes_of_append_eq_0x76 heq
    exact h ⟨rfl, rfl⟩
  have hgroup : (0b01#2 ++ x ++ y : Byte).extractLsb' 6 2 = 0b01#2 := highField_append _ x y
  have hdst : (0b01#2 ++ x ++ y : Byte).extractLsb' 3 3 = x := middleField_append _ x y
  have hsrc : (0b01#2 ++ x ++ y : Byte).extractLsb' 0 3 = y := BitVec.extractLsb'_append_eq_right
  simp only [decodeFirst, hgroup, decodeGroup01, hne, hdst, hsrc]
  rfl

/-- Format D8 (R76). -/
theorem decodeFirst_mvi (x : BitVec 3) :
    decodeFirst (0b00#2 ++ x ++ 0b110#3) = some (.two (.mvi (decodeReg x))) := by
  have hgroup : (0b00#2 ++ x ++ 0b110#3 : Byte).extractLsb' 6 2 = 0b00#2 := highField_append _ x _
  have hdst : (0b00#2 ++ x ++ 0b110#3 : Byte).extractLsb' 3 3 = x := middleField_append _ x _
  have hlow : (0b00#2 ++ x ++ 0b110#3 : Byte).extractLsb' 0 3 = 0b110#3 := BitVec.extractLsb'_append_eq_right
  simp only [decodeFirst, hgroup, decodeGroup00, hlow, hdst]
  rfl

/-- Format RPI (R79), pair code 11 included. -/
theorem decodeFirst_lxi (rp : BitVec 2) :
    decodeFirst (0b00#2 ++ rp ++ 0b0001#4) = some (.three (decodePair rp .lxi .lxiSp)) := by
  have hgroup : (0b00#2 ++ rp ++ 0b0001#4 : Byte).extractLsb' 6 2 = 0b00#2 := highField_append _ rp _
  have hpair : (0b00#2 ++ rp ++ 0b0001#4 : Byte).extractLsb' 4 2 = rp := middleField_append _ rp _
  have hlow : (0b00#2 ++ rp ++ 0b0001#4 : Byte).extractLsb' 0 3 = 0b001#3 :=
    BitVec.extractLsb'_append_eq_of_add_le (by decide)
  have hbit : (0b00#2 ++ rp ++ 0b0001#4 : Byte).getLsbD 3 = false := BitVec.getLsbD_append
  simp only [decodeFirst, hgroup, decodeGroup00, hlow, hbit, hpair]
  rfl

/-- The shape `11 ccc 010` has no meaning for the five values of ccc that R78 does not print (R82). -/
theorem decodeFirst_conditional_unassigned {ccc : BitVec 3} (h3 : ccc ≠ 0b011#3) (h2 : ccc ≠ 0b010#3)
    (h1 : ccc ≠ 0b001#3) : decodeFirst (0b11#2 ++ ccc ++ 0b010#3) = none := by
  have noLength : ∀ c : BitVec 3, c ≠ 0b011#3 → c ≠ 0b010#3 → c ≠ 0b001#3 →
      instrLength (0b11#2 ++ c ++ 0b010#3) = none := by decide
  exact Option.map_eq_none_iff.mp (noLength ccc h3 h2 h1)

/-! ### What `decode` answers, by the form that Byte 1 has -/

theorem decode_one {b1 : Byte} {i : Instr} (h : decodeFirst b1 = some (.one i)) : decode [b1] = .instr i [] :=
  decode_of_some [] h

theorem decode_two {b1 : Byte} {f : Byte → Instr} (h : decodeFirst b1 = some (.two f)) (d : Byte) :
    decode [b1, d] = .instr (f d) [] :=
  decode_of_some [d] h

/-- The low half of the operand comes first (R11, R80). -/
theorem decode_three {b1 : Byte} {f : Word → Instr} (h : decodeFirst b1 = some (.three f)) (lo hi : Byte) :
    decode [b1, lo, hi] = .instr (f (hi ++ lo)) [] :=
  decode_of_some [lo, hi] h

theorem decode_ne_instr_of_none {b1 : Byte} (h : decodeFirst b1 = none) (tail : List Byte) (i : Instr)
    (rest : List Byte) : decode (b1 :: tail) ≠ .instr i rest := by
  simp [decode_of_none tail h]

/-! ### The formats -/

/-- Format DS by the register code table (R73). -/
theorem decode_mov {p q : BitVec 3 × Reg8} (hp : p ∈ regCodes) (hq : q ∈ regCodes) (h : ¬ (p.2 = .m ∧ q.2 = .m)) :
    decode [0b01#2 ++ p.1 ++ q.1] = .instr (.mov p.2 q.2) [] := by
  rw [← decodeReg_of_mem_regCodes p hp, ← decodeReg_of_mem_regCodes q hq] at h ⊢
  exact decode_one (decodeFirst_mov p.1 q.1 h)

/-- Format D8 by the register code table (R76). -/
theorem decode_mvi {p : BitVec 3 × Reg8} (hp : p ∈ regCodes) (d : Byte) :
    decode [0b00#2 ++ p.1 ++ 0b110#3, d] = .instr (.mvi p.2 d) [] := by
  rw [← decodeReg_of_mem_regCodes p hp]
  exact decode_two (decodeFirst_mvi p.1) d

/-- Format RPI by the pair code table (R79). -/
theorem decode_lxi {p : BitVec 2 × Pair} (hp : p ∈ pairCodes) (lo hi : Byte) :
    decode [0b00#2 ++ p.1 ++ 0b0001#4, lo, hi] = .instr (.lxi p.2 (hi ++ lo)) [] := by
  rw [decode_three (decodeFirst_lxi p.1), decodePair_of_mem_pairCodes _ _ p hp]

/-- Pair code 11 of format RPI selects the Stack Pointer (R79). -/
theorem decode_lxiSp (lo hi : Byte) : decode [0b00110001#8, lo, hi] = .instr (.lxiSp (hi ++ lo)) [] :=
  decode_three (decodeFirst_lxi 0b11#2) lo hi

/-- Format X at both values of its bit (R75). -/
theorem decode_stax_ldax (x : BitVec 1) :
    decode [0b000#3 ++ x ++ 0b0010#4] = .instr (.stax (if x = 0#1 then .bc else .de)) [] ∧
    decode [0b000#3 ++ x ++ 0b1010#4] = .instr (.ldax (if x = 0#1 then .bc else .de)) [] := by
  obtain rfl | rfl := BitVec.eq_zero_or_eq_one x
  · exact ⟨decode_one rfl, decode_one rfl⟩
  · exact ⟨decode_one rfl, decode_one rfl⟩

/-- Settles O5, format by format: the fields of DS, D8 and RPI are read back from Byte 1 at any value; where Byte 1 is fixed
(I8, A16) the decoder's answer for it is evaluated and the bytes after it stay variables. -/
theorem formatsWithFieldsDecode : Obligations.FormatsWithFieldsDecode := by
  unfold Obligations.FormatsWithFieldsDecode
  refine ⟨fun p hp q hq h => decode_mov hp hq h, fun dst src rest => ?no_mov, decode_stax_ldax,
    fun d => ⟨fun p hp => decode_mvi hp d, ?immediates⟩, fun lo hi => ?addresses⟩
  case no_mov => exact decode_ne_instr_of_none rfl [] _ rest
  case immediates =>
    exact ⟨decode_two rfl d, decode_two rfl d, decode_two rfl d, decode_two rfl d,
      decode_two rfl d, decode_two rfl d, decode_two rfl d, decode_two rfl d⟩
  case addresses =>
    refine ⟨decode_three rfl lo hi, decode_three rfl lo hi, decode_three rfl lo hi, decode_three rfl lo hi,
      decode_three rfl lo hi, decode_three rfl lo hi, decode_three rfl lo hi, decode_three rfl lo hi,
      fun ccc i rest h3 h2 h1 => ?unassigned, fun p hp => decode_lxi hp lo hi, decode_lxiSp lo hi⟩
    exact decode_ne_instr_of_none (decodeFirst_conditional_unassigned h3 h2 h1) [lo, hi] i rest

end Sys2Proof.Proofs
end

section
/-! PROOFS. The rotates (spec/41_rotate.md R120 to R123): what the four instructions share, and the shift that each does. -/

namespace Sys2Proof.Proofs

open Sys2Proof.Machine Sys2Proof.Claims

/-- All four rotates write A and Carry and move on by one byte: each differs only in the byte and the bit it writes. -/
theorem rotates_of_exec {i : Instr} {s : State} {v : Byte} {cy : Bool} {bit : Nat → Bool}
    (hexec : exec i s = .next (((s.withA v).withCy cy).advance 1)) (hbit : ∀ k, k < 8 → v.getLsbD k = bit k) :
    Rotates i s bit cy :=
  have frame : OnlyRegsAndFlags s (((s.withA v).withCy cy).advance 1) 1 := ⟨rfl, rfl, rfl, fun _ => rfl⟩
  ⟨_, hexec, rfl, frame, hbit, rfl⟩

/-- Bit 7 shifted in at the low end makes the left shift a rotation: the places count modulo 8 (R120). -/
theorem getLsbD_shiftInLow_bit7 (v : Byte) {k : Nat} (hk : k < 8) :
    (shiftInLow v (v.getLsbD 7)).getLsbD k = v.getLsbD ((k + 7) % 8) := by
  rw [getLsbD_shiftInLow v _ hk]
  split
  case isTrue h => rw [h]
  case isFalse h =>
    have hplace : (k + 7) % 8 = k - 1 := by omega
    rw [hplace]

/-- Bit 0 shifted in at the high end makes the right shift a rotation (R121). -/
theorem getLsbD_shiftInHigh_bit0 (v : Byte) {k : Nat} (hk : k < 8) :
    (shiftInHigh v (v.getLsbD 0)).getLsbD k = v.getLsbD ((k + 1) % 8) := by
  rw [getLsbD_shiftInHigh v _ hk]
  split
  case isTrue h => rw [h]
  case isFalse h =>
    have hplace : (k + 1) % 8 = k + 1 := by omega
    rw [hplace]

/-- Settles O36: each of the two shifts in the bit that it shifts out. -/
theorem rlcAndRrcRotateTheAccumulator : Obligations.RlcAndRrcRotateTheAccumulator := by
  unfold Obligations.RlcAndRrcRotateTheAccumulator
  refine ⟨decode_one rfl, decode_one rfl, fun s => ⟨?rlc, ?rrc⟩⟩
  case rlc => exact rotates_of_exec rfl fun _ hk => getLsbD_shiftInLow_bit7 s.regs.a hk
  case rrc => exact rotates_of_exec rfl fun _ hk => getLsbD_shiftInHigh_bit0 s.regs.a hk

/-- Settles O37: each of the two shifts in the old Carry, whatever bit it shifts out. -/
theorem ralAndRarRotateThroughCarry : Obligations.RalAndRarRotateThroughCarry := by
  unfold Obligations.RalAndRarRotateThroughCarry
  refine ⟨decode_one rfl, decode_one rfl, fun s => ⟨?ral, ?rar⟩⟩
  case ral => exact rotates_of_exec rfl fun _ hk => getLsbD_shiftInLow s.regs.a s.flags.cy hk
  case rar => exact rotates_of_exec rfl fun _ hk => getLsbD_shiftInHigh s.regs.a s.flags.cy hk

end Sys2Proof.Proofs
end

section
/-! PROOFS. Data transfers (spec/42_data_transfer.md R132): LDAX at either of its address pairs. -/

namespace Sys2Proof.Proofs

open Sys2Proof.Machine Sys2Proof.Claims

/-- An instruction that writes A and moves on has the frame of a load: A is the one register of the record that differs. -/
theorem loads_of_exec_withA {i : Instr} {s : State} {v : Byte} {len : Nat}
    (hexec : exec i s = .next ((s.withA v).advance len)) : Loads i s { s.regs with a := v } s.sp len :=
  ⟨_, hexec, rfl, rfl, rfl, rfl, rfl, fun _ => rfl⟩

/-- LDAX completes once its address is present: the read is the only part of it that can be stuck (R56, R132). -/
theorem exec_ldax_of_present {x : XPair} {s : State} (h : memPresent s.cfg (xValue s x) = true) :
    exec (.ldax x) s = .next ((s.withA (s.mem.read (xValue s x))).advance 1) :=
  calc
    exec (.ldax x) s = bindR (readByte s (xValue s x)) fun v => .next ((s.withA v).advance 1) := rfl
    _ = .next ((s.withA (s.mem.read (xValue s x))).advance 1) := by rw [readByte_of_present h, bindR_next]

/-- Settles O41: the decoder's answer for the two bytes, and `exec_ldax_of_present` at the two address pairs. -/
theorem ldaxLoadsTheAccumulator : Obligations.LdaxLoadsTheAccumulator := by
  unfold Obligations.LdaxLoadsTheAccumulator
  refine ⟨decode_one rfl, decode_one rfl, fun s => ⟨fun hbc => ?bc, fun hde => ?de⟩⟩
  case bc => exact loads_of_exec_withA (exec_ldax_of_present (x := .bc) hbc)
  case de => exact loads_of_exec_withA (exec_ldax_of_present (x := .de) hde)

end Sys2Proof.Proofs
end

section
/-! PROOFS. Direct addressing (spec/44_direct_addressing.md R161): LDA at its address operand. -/

namespace Sys2Proof.Proofs

open Sys2Proof.Machine Sys2Proof.Claims

/-- An instruction that reads one byte into A and moves on loads that byte once its address is present: the read is the only
part of it that can be stuck (R56). -/
theorem loads_of_exec_readByte {i : Instr} {s : State} {addr : Word} {len : Nat} (hpresent : memPresent s.cfg addr = true)
    (hexec : exec i s = bindR (readByte s addr) fun v => .next ((s.withA v).advance len)) :
    Loads i s { s.regs with a := s.mem.read addr } s.sp len := by
  rw [readByte_of_present hpresent, bindR_next] at hexec
  exact loads_of_exec_withA hexec

/-- Settles O51: the decoder's answer for Byte 1 with the address bytes left as variables, and LDA's meaning, which is one
read into A (R161). -/
theorem ldaLoadsTheAccumulator : Obligations.LdaLoadsTheAccumulator := by
  unfold Obligations.LdaLoadsTheAccumulator
  refine ⟨fun lo hi => ?encoding, fun addr s hpresent => ?load⟩
  case encoding => exact decode_three rfl lo hi
  case load => exact loads_of_exec_readByte hpresent rfl

end Sys2Proof.Proofs
end

section
/-! PROOFS. Branching (spec/46_branching.md R190 to R194): every jump writes `pc` alone, so each differs from the others only
in its target, and the conditional jumps only in the status bit they test. -/

namespace Sys2Proof.Proofs

open Sys2Proof.Machine Sys2Proof.Claims

/-- Writing `pc` has the frame of a jump (R190). -/
theorem jumpsTo_of_exec_withPc {i : Instr} {s : State} {target : Word} (hexec : exec i s = .next (s.withPc target)) :
    JumpsTo i s target :=
  ⟨_, hexec, rfl, rfl, rfl, rfl, rfl, fun _ => rfl⟩

/-- A conditional jump whose condition holds goes to its address (R190). -/
theorem jumpsTo_of_exec_jumpIf_taken {i : Instr} {s : State} {cond : Bool} {addr : Word}
    (hexec : exec i s = jumpIf cond addr s) (hcond : cond = true) : JumpsTo i s addr := by
  subst hcond
  exact jumpsTo_of_exec_withPc hexec

/-- A conditional jump whose condition fails goes on past its three bytes, which is also a write of `pc` alone (R190). -/
theorem jumpsTo_of_exec_jumpIf_not_taken {i : Instr} {s : State} {cond : Bool} {addr : Word}
    (hexec : exec i s = jumpIf cond addr s) (hcond : cond = false) : JumpsTo i s (s.pc + 3#16) := by
  subst hcond
  exact jumpsTo_of_exec_withPc hexec

/-- Settles O56: the decoder's answers for the two first bytes, and the meanings of PCHL (R191) and JMP (R192), each one
write of `pc`. -/
theorem pchlAndJmpJump : Obligations.PchlAndJmpJump := by
  unfold Obligations.PchlAndJmpJump
  refine ⟨decode_one rfl, fun lo hi => decode_three rfl lo hi, fun s => ⟨?pchl, fun addr => ?jmp⟩⟩
  case pchl => exact jumpsTo_of_exec_withPc rfl
  case jmp => exact jumpsTo_of_exec_withPc rfl

/-- Settles O57: JC tests Carry and JNC its complement (R193, R194), so at either value of Carry one of them jumps and the
other goes on. -/
theorem jcAndJncTestCarry : Obligations.JcAndJncTestCarry := by
  unfold Obligations.JcAndJncTestCarry
  refine ⟨fun lo hi => ⟨decode_three rfl lo hi, decode_three rfl lo hi⟩, fun addr s => ?carry⟩
  have hjc : exec (.jc addr) s = jumpIf s.flags.cy addr s := rfl
  have hjnc : exec (.jnc addr) s = jumpIf (!s.flags.cy) addr s := rfl
  refine ⟨fun hset => ⟨?jc_taken, ?jnc_not_taken⟩, fun hclear => ⟨?jc_not_taken, ?jnc_taken⟩⟩
  case jc_taken => exact jumpsTo_of_exec_jumpIf_taken hjc hset
  case jnc_not_taken => exact jumpsTo_of_exec_jumpIf_not_taken hjnc (by rw [hset, Bool.not_true])
  case jc_not_taken => exact jumpsTo_of_exec_jumpIf_not_taken hjc hclear
  case jnc_taken => exact jumpsTo_of_exec_jumpIf_taken hjnc (by rw [hclear, Bool.not_false])

end Sys2Proof.Proofs
end

section
/-! PROOFS. The decoder and the encoder are inverse to each other (spec/30_encoding.md section 7), and the first bytes that the
decoder rejects (R82). -/

namespace Sys2Proof.Proofs

open Sys2Proof.Machine Sys2Proof.Claims

/-! ### Decoding an encoding, by the form that Byte 1 has -/

theorem decode_one_append {b1 : Byte} {i : Instr} (h : decodeFirst b1 = some (.one i)) (rest : List Byte) :
    decode ([b1] ++ rest) = .instr i rest :=
  decode_of_some rest h

theorem decode_two_append {b1 : Byte} {f : Byte → Instr} (h : decodeFirst b1 = some (.two f)) (d : Byte)
    (rest : List Byte) : decode ([b1, d] ++ rest) = .instr (f d) rest :=
  decode_of_some (d :: rest) h

/-- The operand's two halves, low half first, are joined again (R11, R80). -/
theorem decode_encode3_append {b1 : Byte} {f : Word → Instr} (h : decodeFirst b1 = some (.three f)) (v : Word)
    (rest : List Byte) : decode (encode3 b1 v ++ rest) = .instr (f v) rest :=
  calc
    decode (encode3 b1 v ++ rest) = .instr (f (join (hiByte v) (loByte v))) rest :=
      decode_of_some (loByte v :: hiByte v :: rest) h
    _ = .instr (f v) rest := by rw [join_halves]

theorem decodeReg_regCode (r : Reg8) : decodeReg (regCode r) = r := by cases r <;> rfl

/-- MOV's two codes are read back wherever the term is an instruction (R73). -/
theorem decodeFirst_mov_regCode {dst src : Reg8} (h : (Instr.mov dst src).wellFormed = true) :
    decodeFirst (0b01#2 ++ regCode dst ++ regCode src) = some (.one (.mov dst src)) := by
  have hne : ¬ (dst = .m ∧ src = .m) := by
    rintro ⟨rfl, rfl⟩
    cases h
  have hcodes := decodeFirst_mov (regCode dst) (regCode src)
  rw [decodeReg_regCode, decodeReg_regCode] at hcodes
  exact hcodes hne

/-- Settles O1, constructor by constructor: the decoder's answer for Byte 1 with its field at each of its codes, and the
operand bytes as variables. -/
theorem decodeOfEncodeGivesInstruction : Obligations.DecodeOfEncodeGivesInstruction := by
  unfold Obligations.DecodeOfEncodeGivesInstruction
  intro i rest hwf
  cases i with
  | pushPsw | popPsw | dadSp | inxSp | dcxSp | xchg | xthl | sphl | rlc | rrc | ral | rar | pchl =>
    exact decode_one_append rfl rest
  | push rp | pop rp | dad rp | inx rp | dcx rp => cases rp <;> exact decode_one_append rfl rest
  | stax x | ldax x => cases x <;> exact decode_one_append rfl rest
  | mov dst src => exact decode_one_append (decodeFirst_mov_regCode hwf) rest
  | add r | adc r | sub r | sbb r | ana r | xra r | ora r | cmp r => cases r <;> exact decode_one_append rfl rest
  | mvi r d => cases r <;> exact decode_two_append rfl d rest
  | adi d | aci d | sui d | sbi d | ani d | xri d | ori d | cpi d => exact decode_two_append rfl d rest
  | lxi rp v => cases rp <;> exact decode_encode3_append rfl v rest
  | sta v | lda v | shld v | lhld v | lxiSp v | jmp v | jc v | jnc v | jz v => exact decode_encode3_append rfl v rest

/-! ### What Byte 1 says is the encoding that begins with it -/

/-- The form is that of the encodings that begin with `b1`: with any operand it is an instruction, and the bytes are `b1` and
the operand's. -/
def EncodesFrom (b1 : Byte) : Form → Prop
  | .one i => i.wellFormed = true ∧ encode i = [b1]
  | .two f => ∀ d, (f d).wellFormed = true ∧ encode (f d) = [b1, d]
  | .three f => ∀ v, (f v).wellFormed = true ∧ encode (f v) = encode3 b1 v

/-- Every 3-bit code selects an operand (R21); so a 3-bit field is enumerated by the operand it would select. -/
theorem exists_regCode_eq : ∀ x : BitVec 3, ∃ r : Reg8, regCode r = x := by
  intro x
  refine ⟨decodeReg x, ?_⟩
  revert x
  decide

theorem octal_fields_append : ∀ b : Byte, b.extractLsb' 6 2 ++ b.extractLsb' 3 3 ++ b.extractLsb' 0 3 = b := by
  decide +kernel

/-- A byte is its three fields `gg xxx yyy` (R81), the last two as register codes. -/
theorem exists_octal_fields (b : Byte) : ∃ (g : BitVec 2) (x y : Reg8), g ++ regCode x ++ regCode y = b := by
  obtain ⟨x, hx⟩ := exists_regCode_eq (b.extractLsb' 3 3)
  obtain ⟨y, hy⟩ := exists_regCode_eq (b.extractLsb' 0 3)
  exact ⟨b.extractLsb' 6 2, x, y, by rw [hx, hy, octal_fields_append]⟩

/-- MOV: both codes are read back, and `0x76` alone is left out (R73, R83). -/
theorem encodesFrom_group01 {x y : Reg8} {form : Form} (h : decodeGroup01 (0b01#2 ++ regCode x ++ regCode y) = some form) :
    EncodesFrom (0b01#2 ++ regCode x ++ regCode y) form := by
  unfold decodeGroup01 at h
  split at h
  case isTrue => cases h
  case isFalse hne =>
    rw [middleField_append, BitVec.extractLsb'_append_eq_right, decodeReg_regCode, decodeReg_regCode] at h
    cases h
    refine ⟨?_, rfl⟩
    have hmm : ¬ (x = .m ∧ y = .m) := by
      rintro ⟨rfl, rfl⟩
      exact hne rfl
    simpa [Instr.wellFormed, ← not_and_or] using hmm

/-- The eight register/memory to accumulator transfers, the source code left as a variable (R74). -/
theorem encodesFrom_group10 {x y : Reg8} {form : Form} (h : decodeGroup10 (0b10#2 ++ regCode x ++ regCode y) = some form) :
    EncodesFrom (0b10#2 ++ regCode x ++ regCode y) form := by
  unfold decodeGroup10 at h
  rw [middleField_append, BitVec.extractLsb'_append_eq_right, decodeReg_regCode] at h
  cases x <;> cases h <;> exact ⟨rfl, rfl⟩

/-- Group 00 by its low field, then by the middle one where that selects the form (R81). -/
theorem encodesFrom_group00 {x y : Reg8} {form : Form} (h : decodeGroup00 (0b00#2 ++ regCode x ++ regCode y) = some form) :
    EncodesFrom (0b00#2 ++ regCode x ++ regCode y) form := by
  cases y with
  | b | h | l => cases x <;> nomatch h
  | c => -- DAD and LXI
    cases x with
    | b | d | h | m => cases h; exact fun _ => ⟨rfl, rfl⟩
    | c | e | l | a => cases h; exact ⟨rfl, rfl⟩
  | d => -- STAX, LDAX and the direct addressing instructions
    cases x with
    | b | c | d | e => cases h; exact ⟨rfl, rfl⟩
    | h | l | m | a => cases h; exact fun _ => ⟨rfl, rfl⟩
  | e => cases x <;> cases h <;> exact ⟨rfl, rfl⟩ -- INX and DCX
  | m => cases x <;> cases h <;> exact fun _ => ⟨rfl, rfl⟩ -- MVI
  | a => -- the rotates
    cases x with
    | b | c | d | e => cases h; exact ⟨rfl, rfl⟩
    | h | l | m | a => nomatch h

/-- Group 11 by its low field, then by the middle one (R81). -/
theorem encodesFrom_group11 {x y : Reg8} {form : Form} (h : decodeGroup11 (0b11#2 ++ regCode x ++ regCode y) = some form) :
    EncodesFrom (0b11#2 ++ regCode x ++ regCode y) form := by
  cases y with
  | b | h | a => cases x <;> nomatch h
  | c => -- POP, PCHL and SPHL
    cases x with
    | b | d | h | m | l | a => cases h; exact ⟨rfl, rfl⟩
    | c | e => nomatch h
  | d => -- JZ, JNC and JC
    cases x with
    | c | d | e => cases h; exact fun _ => ⟨rfl, rfl⟩
    | b | h | l | m | a => nomatch h
  | e => -- JMP, XTHL and XCHG
    cases x with
    | b => cases h; exact fun _ => ⟨rfl, rfl⟩
    | h | l => cases h; exact ⟨rfl, rfl⟩
    | c | d | e | m | a => nomatch h
  | l => -- PUSH
    cases x with
    | b | d | h | m => cases h; exact ⟨rfl, rfl⟩
    | c | e | l | a => nomatch h
  | m => cases x <;> cases h <;> exact fun _ => ⟨rfl, rfl⟩ -- the accumulator immediates

/-- Whatever form Byte 1 has, it is the form of the encodings that begin with that byte: no bit of it is ignored (R81, R86). -/
theorem encodesFrom_of_decodeFirst {b1 : Byte} {form : Form} (h : decodeFirst b1 = some form) : EncodesFrom b1 form := by
  obtain ⟨g, x, y, rfl⟩ := exists_octal_fields b1
  have hgroup : (g ++ regCode x ++ regCode y : Byte).extractLsb' 6 2 = g := highField_append g _ _
  have hg : ∀ g : BitVec 2, g = 0b00#2 ∨ g = 0b01#2 ∨ g = 0b10#2 ∨ g = 0b11#2 := by decide
  unfold decodeFirst at h
  rw [hgroup] at h
  rcases hg g with rfl | rfl | rfl | rfl
  · exact encodesFrom_group00 h
  · exact encodesFrom_group01 h
  · exact encodesFrom_group10 h
  · exact encodesFrom_group11 h

/-- The inversion of `decode`: Byte 1's form fixes the encoding up to the operand bytes, and the tail supplies those. -/
theorem decode_eq_instr {b1 : Byte} {tail rest : List Byte} {i : Instr} (h : decode (b1 :: tail) = .instr i rest) :
    i.wellFormed = true ∧ b1 :: tail = encode i ++ rest ∧ instrLength b1 = some (encode i).length := by
  cases hb1 : decodeFirst b1 with
  | none => exact absurd h (decode_ne_instr_of_none hb1 tail i rest)
  | some form =>
    have henc := encodesFrom_of_decodeFirst hb1
    rw [decode_of_some tail hb1] at h
    rw [instrLength, hb1]
    cases form with
    | one j =>
      obtain ⟨hwf, hbytes⟩ := henc
      cases h
      rw [hbytes]
      exact ⟨hwf, rfl, rfl⟩
    | two f =>
      rcases tail with _ | ⟨d, tail⟩
      · nomatch h
      obtain ⟨hwf, hbytes⟩ := henc d
      cases h
      rw [hbytes]
      exact ⟨hwf, rfl, rfl⟩
    | three f =>
      rcases tail with _ | ⟨lo, _ | ⟨hi, tail⟩⟩
      · nomatch h
      · nomatch h
      obtain ⟨hwf, hbytes⟩ := henc (join hi lo)
      cases h
      rw [hbytes, encode3, loByte_join, hiByte_join]
      exact ⟨hwf, rfl, rfl⟩

/-- Settles O2: no instruction is decoded from the empty list, and of a list with a Byte 1 `decode_eq_instr` says it. -/
theorem decodedBytesAreTheEncoding : Obligations.DecodedBytesAreTheEncoding := by
  unfold Obligations.DecodedBytesAreTheEncoding
  intro bs rest i h
  cases bs with
  | nil => nomatch h
  | cons b1 tail =>
    obtain ⟨hwf, hbytes, -⟩ := decode_eq_instr h
    exact ⟨hwf, hbytes⟩

/-- The first bytes without a form are the listed 69: a finite fact about the decoder's table (R82). -/
theorem instrLength_eq_none_iff : ∀ b1 : Byte, instrLength b1 = none ↔ b1 ∈ unspecifiedBytes := by
  decide +kernel

theorem decodeFirst_eq_none_iff {b1 : Byte} : decodeFirst b1 = none ↔ b1 ∈ unspecifiedBytes :=
  Option.map_eq_none_iff.symm.trans (instrLength_eq_none_iff b1)

/-- Settles O3: a byte is rejected as unspecified exactly where it has no form, since no tail is rejected so. -/
theorem rejectedFirstBytesAreThe69 : Obligations.RejectedFirstBytesAreThe69 := by
  unfold Obligations.RejectedFirstBytesAreThe69
  intro b1 rest
  rw [← decodeFirst_eq_none_iff]
  cases hb1 : decodeFirst b1 with
  | none => simp [decode_of_none rest hb1]
  | some form => simp [decode_of_some rest hb1, decodeTail_ne_unspecified]

/-- Settles O4: closed words and two finite code tables, which the decoder evaluates. -/
theorem sampleWordsDecode : Obligations.SampleWordsDecode := by
  unfold Obligations.SampleWordsDecode
  decide

end Sys2Proof.Proofs
end

section
/-! PROOFS. Rules about the state that the instructions share: a list of bytes stored one after another (R64), a register pair
written from its two halves (R22), and an operand code as the addresses and cells it stands for (R21). -/

namespace Sys2Proof.Proofs

open Sys2Proof.Machine Sys2Proof.Claims

/-! ### Storing a list of bytes -/

/-- Memory after the listed bytes are stored, the first one first. -/
def writeCells (m : Memory) : List (Word × Byte) → Memory
  | [] => m
  | c :: cs => writeCells (m.write c.1 c.2) cs

theorem wf_writeCells {m : Memory} (h : m.wf) (cells : List (Word × Byte)) : (writeCells m cells).wf := by
  induction cells generalizing m with
  | nil => exact h
  | cons c cs ih => exact ih (Memory.wf_write h c.1 c.2)

theorem read_writeCells_of_not_mem {cells : List (Word × Byte)} {a : Word} (h : a ∉ cells.map Prod.fst) (m : Memory) :
    (writeCells m cells).read a = m.read a := by
  induction cells generalizing m with
  | nil => rfl
  | cons c cs ih =>
    rw [List.map_cons, List.mem_cons, not_or] at h
    obtain ⟨hc, hcs⟩ := h
    exact (ih hcs _).trans (Memory.read_write_other m c.2 hc)

/-- Where no address is listed twice, every listed byte is read back. -/
theorem read_writeCells_of_mem {cells : List (Word × Byte)} (hnodup : (cells.map Prod.fst).Nodup) (m : Memory) :
    ∀ c ∈ cells, (writeCells m cells).read c.1 = c.2 := by
  induction cells generalizing m with
  | nil => nofun
  | cons d cs ih =>
    rw [List.map_cons, List.nodup_cons] at hnodup
    obtain ⟨hd, hcs⟩ := hnodup
    intro c hc
    rcases List.mem_cons.1 hc with rfl | hc
    · exact (read_writeCells_of_not_mem hd _).trans (Memory.read_write_same m c.1 c.2)
    · exact ih hcs _ c hc

/-! ### Register pairs -/

theorem pairValue_eq_join (s : State) (rp : Pair) : pairValue s rp = join (pairHalves s rp).1 (pairHalves s rp).2 := by
  cases rp <;> rfl

@[simp] theorem hiByte_pairValue (s : State) (rp : Pair) : hiByte (pairValue s rp) = (pairHalves s rp).1 := by
  rw [pairValue_eq_join, hiByte_join]

@[simp] theorem loByte_pairValue (s : State) (rp : Pair) : loByte (pairValue s rp) = (pairHalves s rp).2 := by
  rw [pairValue_eq_join, loByte_join]

theorem withPair_eq_withRegs (s : State) (rp : Pair) (v : Word) :
    s.withPair rp v = s.withRegs (regsPaired s rp (hiByte v) (loByte v)) := by
  cases rp <;> rfl

theorem withPair_join (s : State) (rp : Pair) (hi lo : Byte) :
    s.withPair rp (join hi lo) = s.withRegs (regsPaired s rp hi lo) := by
  rw [withPair_eq_withRegs, hiByte_join, loByte_join]

theorem toNat_halves (v : Word) : (hiByte v).toNat * 256 + (loByte v).toNat = v.toNat := by
  rw [← toNat_join, join_halves]

/-! ### Operand codes -/

/-- The address an operand code stands for: only M has one (R21). -/
def operandAt (s : State) : Reg8 → List Word
  | .m => [pairValue s .hl]
  | _ => []

/-- The byte of memory that writing an operand code stores. -/
def operandCell (s : State) (r : Reg8) (v : Byte) : List (Word × Byte) :=
  match r with
  | .m => [(pairValue s .hl, v)]
  | _ => []

theorem operandCell_addresses (s : State) (r : Reg8) (v : Byte) : (operandCell s r v).map Prod.fst = operandAt s r := by
  cases r <;> rfl

theorem present_operandAt_iff {s : State} {r : Reg8} :
    (∀ a ∈ operandAt s r, memPresent s.cfg a = true) ↔ Readable s r := by
  cases r <;> simp [operandAt, Readable]

theorem writable_operandAt_iff {s : State} {r : Reg8} :
    (∀ a ∈ operandAt s r, memWritable s.cfg a = true) ↔ Writable s r := by
  cases r <;> simp [operandAt, Writable]

end Sys2Proof.Proofs
end

section
/-! PROOFS. What each instruction leaves when it completes, one function per field of the state; which bytes of memory it reads;
and the one theorem that ties both to `exec` (`exec_performs`): where the bytes read are present and the bytes stored are
writable the instruction answers that state, and otherwise it is stuck. The proofs about every instruction use it in place of
`exec`'s arms. -/

namespace Sys2Proof.Proofs

open Sys2Proof.Machine Sys2Proof.Claims

/-! ### The state after an instruction, field by field -/

/-- The operand of an accumulator instruction (R148, R180); of no use for the other instructions. -/
def aluOperand (i : Instr) (s : State) : Byte :=
  match i with
  | .add r | .adc r | .sub r | .sbb r | .ana r | .xra r | .ora r | .cmp r => operandByte s r
  | .adi d | .aci d | .sui d | .sbi d | .ani d | .xri d | .ori d | .cpi d => d
  | _ => 0#8

/-- The accumulator after the instructions that write it and no other register. -/
def accumulatorAfter (i : Instr) (s : State) : Byte :=
  match i with
  | .popPsw => if s.cfg.pswFlagsHigh then s.mem.read s.sp else s.mem.read (s.sp + 1#16)
  | .rlc => shiftInLow s.regs.a (s.regs.a.getLsbD 7)
  | .rrc => shiftInHigh s.regs.a (s.regs.a.getLsbD 0)
  | .ral => shiftInLow s.regs.a s.flags.cy
  | .rar => shiftInHigh s.regs.a s.flags.cy
  | .ldax x => s.mem.read (xValue s x)
  | .lda addr => s.mem.read addr
  | .add _ | .adi _ => (add8 s.regs.a (aluOperand i s) false).res
  | .adc _ | .aci _ => (add8 s.regs.a (aluOperand i s) s.flags.cy).res
  | .sub _ | .sui _ => (sub8 s.cfg.auxSub s.regs.a (aluOperand i s) false).res
  | .sbb _ | .sbi _ => (sub8 s.cfg.auxSub s.regs.a (aluOperand i s) s.flags.cy).res
  | .ana _ | .ani _ => s.regs.a &&& aluOperand i s
  | .xra _ | .xri _ => s.regs.a ^^^ aluOperand i s
  | .ora _ | .ori _ => s.regs.a ||| aluOperand i s
  | _ => s.regs.a

/-- The registers (R20). -/
def regsAfter (i : Instr) (s : State) : Regs :=
  match i with
  | .pop rp => regsPaired s rp (s.mem.read (s.sp + 1#16)) (s.mem.read s.sp)
  | .dad rp => (doubleAdd s (pairValue s rp)).regs
  | .dadSp => (doubleAdd s s.sp).regs
  | .inx rp => regsPaired s rp (hiByte (pairValue s rp + 1#16)) (loByte (pairValue s rp + 1#16))
  | .dcx rp => regsPaired s rp (hiByte (pairValue s rp - 1#16)) (loByte (pairValue s rp - 1#16))
  | .xchg => { s.regs with h := s.regs.d, l := s.regs.e, d := s.regs.h, e := s.regs.l }
  | .xthl => regsPaired s .hl (s.mem.read (s.sp + 1#16)) (s.mem.read s.sp)
  | .mov dst src => regsWritten s dst (operandByte s src)
  | .mvi dst d => regsWritten s dst d
  | .lhld addr => regsPaired s .hl (s.mem.read (addr + 1#16)) (s.mem.read addr)
  | .lxi rp v => regsPaired s rp (hiByte v) (loByte v)
  | _ => { s.regs with a := accumulatorAfter i s }

/-- The status bits (R31). -/
def flagsAfter (i : Instr) (s : State) : Flags :=
  match i with
  | .popPsw => setFlags (if s.cfg.pswFlagsHigh then s.mem.read (s.sp + 1#16) else s.mem.read s.sp)
  | .dad rp => (doubleAdd s (pairValue s rp)).flags
  | .dadSp => (doubleAdd s s.sp).flags
  | .rlc | .ral => { s.flags with cy := s.regs.a.getLsbD 7 }
  | .rrc | .rar => { s.flags with cy := s.regs.a.getLsbD 0 }
  | .add _ | .adi _ => s.flags.ofAlu (add8 s.regs.a (aluOperand i s) false)
  | .adc _ | .aci _ => s.flags.ofAlu (add8 s.regs.a (aluOperand i s) s.flags.cy)
  | .sub _ | .sui _ | .cmp _ | .cpi _ => s.flags.ofAlu (sub8 s.cfg.auxSub s.regs.a (aluOperand i s) false)
  | .sbb _ | .sbi _ => s.flags.ofAlu (sub8 s.cfg.auxSub s.regs.a (aluOperand i s) s.flags.cy)
  | .ana _ | .ani _ =>
    s.flags.ofLogic (andAc s.cfg.logicAc s.flags.ac s.regs.a (aluOperand i s)) (s.regs.a &&& aluOperand i s)
  | .xra _ | .xri _ => s.flags.ofLogic (orAc s.cfg.logicAc s.flags.ac) (s.regs.a ^^^ aluOperand i s)
  | .ora _ | .ori _ => s.flags.ofLogic (orAc s.cfg.logicAc s.flags.ac) (s.regs.a ||| aluOperand i s)
  | _ => s.flags

/-- The Stack Pointer (R24). -/
def spAfter (i : Instr) (s : State) : Word :=
  match i with
  | .push _ | .pushPsw => s.sp - 2#16
  | .pop _ | .popPsw => s.sp + 2#16
  | .inxSp => s.sp + 1#16
  | .dcxSp => s.sp - 1#16
  | .sphl => pairValue s .hl
  | .lxiSp v => if s.cfg.lxiSpSwapped then join (loByte v) (hiByte v) else v
  | _ => s.sp

/-- The Program Counter: past the instruction, but for the jumps (R11, R190). -/
def pcAfter (i : Instr) (s : State) : Word :=
  match i with
  | .pchl => pairValue s .hl
  | .jmp addr => addr
  | .jc addr => if s.flags.cy then addr else s.pc + 3#16
  | .jnc addr => if !s.flags.cy then addr else s.pc + 3#16
  | .jz addr => if s.flags.z then addr else s.pc + 3#16
  | _ => s.pc + BitVec.ofNat 16 (encode i).length

/-- The bytes stored, in the order of R54. -/
def cellsStored (i : Instr) (s : State) : List (Word × Byte) :=
  match i with
  | .push rp => [(s.sp - 1#16, (pairHalves s rp).1), (s.sp - 2#16, (pairHalves s rp).2)]
  | .pushPsw =>
    [(s.sp - 1#16, if s.cfg.pswFlagsHigh then flagsByte s.flags else s.regs.a),
      (s.sp - 2#16, if s.cfg.pswFlagsHigh then s.regs.a else flagsByte s.flags)]
  | .xthl => [(s.sp, s.regs.l), (s.sp + 1#16, s.regs.h)]
  | .mov dst src => operandCell s dst (operandByte s src)
  | .mvi dst d => operandCell s dst d
  | .stax x => [(xValue s x, s.regs.a)]
  | .sta addr => [(addr, s.regs.a)]
  | .shld addr => [(addr, s.regs.l), (addr + 1#16, s.regs.h)]
  | _ => []

/-- The state after an instruction that completes. -/
def stateAfter (i : Instr) (s : State) : State where
  regs  := regsAfter i s
  flags := flagsAfter i s
  sp    := spAfter i s
  pc    := pcAfter i s
  mem   := writeCells s.mem (cellsStored i s)
  cfg   := s.cfg

/-- The addresses an instruction reads data from. -/
def readAt (i : Instr) (s : State) : List Word :=
  match i with
  | .pop _ | .popPsw | .xthl => [s.sp, s.sp + 1#16]
  | .mov _ r | .add r | .adc r | .sub r | .sbb r | .ana r | .xra r | .ora r | .cmp r => operandAt s r
  | .ldax x => [xValue s x]
  | .lda addr => [addr]
  | .lhld addr => [addr, addr + 1#16]
  | _ => []

/-- The three instructions that `RP11_ARITH = refuse` takes away (R23, D6). -/
def usesPairCode11 : Instr → Bool
  | .dadSp | .inxSp | .dcxSp => true
  | _ => false

/-- The bytes stored are those of `storedAt`. -/
theorem cellsStored_addresses (i : Instr) (s : State) : (cellsStored i s).map Prod.fst = storedAt i s := by
  cases i with
  | mov dst src => cases dst <;> rfl
  | mvi dst d => cases dst <;> rfl
  | _ => rfl

theorem storedAt_mov (s : State) (dst src : Reg8) : storedAt (.mov dst src) s = operandAt s dst :=
  (cellsStored_addresses (.mov dst src) s).symm.trans (operandCell_addresses s dst _)

theorem storedAt_mvi (s : State) (dst : Reg8) (d : Byte) : storedAt (.mvi dst d) s = operandAt s dst :=
  (cellsStored_addresses (.mvi dst d) s).symm.trans (operandCell_addresses s dst d)

/-! ### What an operation on memory answers -/

/-- `o` answers `t` where the bytes read are present and the bytes stored are writable; otherwise it is stuck, on a read where
a byte read is absent (R56). -/
structure Performs (c : Config) (o : Result State) (reads stores : List Word) (t : State) : Prop where
  completes : (∀ a ∈ reads, memPresent c a = true) → (∀ a ∈ stores, memWritable c a = true) → o = .next t
  stuckRead : (∃ a ∈ reads, memPresent c a = false) → StuckRead o
  stuckWrite : (∀ a ∈ reads, memPresent c a = true) → (∃ a ∈ stores, memWritable c a = false) → StuckWrite o

section
variable {s t : State} {reads stores : List Word}

theorem performs_of_eq_next {c : Config} {o : Result State} (h : o = .next t) : Performs c o [] [] t where
  completes _ _ := h
  stuckRead := nofun
  stuckWrite _ := nofun

theorem performs_readByte {a : Word} {f : Byte → Result State}
    (h : Performs s.cfg (f (s.mem.read a)) reads stores t) :
    Performs s.cfg (bindR (readByte s a) f) (a :: reads) stores t := by
  cases hp : memPresent s.cfg a with
  | true =>
    rw [readByte_of_present hp, bindR_next]
    constructor
    case completes => exact fun hr hw => h.completes (fun b hb => hr b (List.mem_cons_of_mem a hb)) hw
    case stuckWrite => exact fun hr hw => h.stuckWrite (fun b hb => hr b (List.mem_cons_of_mem a hb)) hw
    case stuckRead =>
      rintro ⟨b, hb, habsent⟩
      rcases List.mem_cons.1 hb with rfl | hb
      · exact nomatch hp.symm.trans habsent
      · exact h.stuckRead ⟨b, hb, habsent⟩
  | false =>
    have hnot : ¬ ∀ b ∈ a :: reads, memPresent s.cfg b = true :=
      fun hr => nomatch hp.symm.trans (hr a List.mem_cons_self)
    constructor
    case completes => exact fun hr => absurd hr hnot
    case stuckWrite => exact fun hr => absurd hr hnot
    case stuckRead => exact fun _ => ⟨a, by simp [readByte, hp]⟩

theorem performs_writeByte {a : Word} {v : Byte} {f : State → Result State}
    (h : Performs s.cfg (f (s.withMem (s.mem.write a v))) [] stores t) :
    Performs s.cfg (bindR (writeByte s a v) f) [] (a :: stores) t := by
  cases hp : memWritable s.cfg a with
  | true =>
    rw [writeByte_of_writable v hp, bindR_next]
    constructor
    case completes => exact fun hr hw => h.completes hr fun b hb => hw b (List.mem_cons_of_mem a hb)
    case stuckRead => exact h.stuckRead
    case stuckWrite =>
      rintro hr ⟨b, hb, hreadOnly⟩
      rcases List.mem_cons.1 hb with rfl | hb
      · exact nomatch hp.symm.trans hreadOnly
      · exact h.stuckWrite hr ⟨b, hb, hreadOnly⟩
  | false =>
    constructor
    case completes => exact fun _ hw => nomatch hp.symm.trans (hw a List.mem_cons_self)
    case stuckRead => nofun
    case stuckWrite => exact fun _ _ => ⟨a, by simp [writeByte, hp]⟩

theorem bindR_assoc {α β γ : Type} (o : Result α) (f : α → Result β) (g : β → Result γ) :
    bindR (bindR o f) g = bindR o fun x => bindR (f x) g := by
  cases o <;> rfl

theorem performs_readTwo {a : Word} {f : Word → Result State}
    (h : Performs s.cfg (f (join (s.mem.read (a + 1#16)) (s.mem.read a))) reads stores t) :
    Performs s.cfg (bindR (readTwo s a) f) (a :: (a + 1#16) :: reads) stores t := by
  simp only [readTwo, bindR_assoc, bindR_next]
  exact performs_readByte (performs_readByte h)

theorem performs_writeTwo {a v : Word} {f : State → Result State}
    (h : f (s.withMem (writeCells s.mem [(a, loByte v), (a + 1#16, hiByte v)])) = .next t) :
    Performs s.cfg (bindR (writeTwo s a v) f) [] [a, a + 1#16] t := by
  simp only [writeTwo, bindR_assoc]
  exact performs_writeByte (performs_writeByte (s := s.withMem (s.mem.write a (loByte v))) (performs_of_eq_next h))

theorem performs_pushTwo {hi lo : Byte} {f : State → Result State}
    (h : f ((s.withMem (writeCells s.mem [(s.sp - 1#16, hi), (s.sp - 2#16, lo)])).withSp (s.sp - 2#16)) = .next t) :
    Performs s.cfg (bindR (pushTwo s hi lo) f) [] [s.sp - 1#16, s.sp - 2#16] t := by
  simp only [pushTwo, bindR_assoc, bindR_next]
  exact performs_writeByte (performs_writeByte (s := s.withMem (s.mem.write (s.sp - 1#16) hi)) (performs_of_eq_next h))

theorem performs_readOperand {r : Reg8} {f : Byte → Result State} (h : Performs s.cfg (f (operandByte s r)) [] stores t) :
    Performs s.cfg (bindR (readOperand s r) f) (operandAt s r) stores t := by
  cases r with
  | m => exact performs_readByte h
  | _ => exact h

/-- Writing an operand code changes a register or stores a byte; the other one of the two is left as it is (R21). -/
theorem performs_writeOperand {r : Reg8} {v : Byte} {f : State → Result State}
    (h : f ((s.withRegs (regsWritten s r v)).withMem (writeCells s.mem (operandCell s r v))) = .next t) :
    Performs s.cfg (bindR (writeOperand s r v) f) [] (operandAt s r) t := by
  cases r with
  | m => exact performs_writeByte (performs_of_eq_next h)
  | _ => exact performs_of_eq_next h

end

/-! ### The tie to `exec` -/

theorem withRp11_of_sp {s t : State} (h : s.cfg.rp11Arith = .sp) (b1 : Byte) : withRp11 s b1 t = .next t :=
  withRp11_eq_next.2 ⟨h, rfl⟩

theorem performs_jumpIf {s t : State} {cond : Bool} {addr : Word}
    (h : t = s.withPc (if cond then addr else s.pc + 3#16)) : Performs s.cfg (jumpIf cond addr s) [] [] t := by
  refine performs_of_eq_next (jumpIf_eq_next.2 ?_)
  cases cond <;> exact h

/-- Every instruction reads the bytes of `readAt`, stores to the addresses of `storedAt` and leaves `stateAfter`. -/
theorem exec_performs {i : Instr} {s : State} (hwf : i.wellFormed = true)
    (hrp11 : usesPairCode11 i = true → s.cfg.rp11Arith = .sp) :
    Performs s.cfg (exec i s) (readAt i s) (storedAt i s) (stateAfter i s) := by
  cases i with
  | rlc | rrc | ral | rar | lxiSp | adi | aci | sui | sbi | ani | xri | ori | cpi | pchl | jmp | sphl =>
    exact performs_of_eq_next rfl
  | add r | adc r | sub r | sbb r | ana r | xra r | ora r | cmp r =>
    exact performs_readOperand (performs_of_eq_next rfl)
  | dad rp => exact performs_of_eq_next rfl
  | inx rp | dcx rp | lxi rp v => cases rp <;> exact performs_of_eq_next rfl
  | dadSp | inxSp | dcxSp => exact performs_of_eq_next (withRp11_of_sp (hrp11 rfl) _)
  | jc | jnc | jz => exact performs_jumpIf rfl
  | ldax | lda => exact performs_readByte (performs_of_eq_next rfl)
  | stax | sta => exact performs_writeByte (performs_of_eq_next rfl)
  | pushPsw => exact performs_pushTwo rfl
  | push rp =>
    refine performs_pushTwo ?_
    rw [hiByte_pairValue, loByte_pairValue]
    rfl
  | pop rp =>
    refine performs_readTwo (performs_of_eq_next ?_)
    rw [withPair_join]
    rfl
  | popPsw =>
    refine performs_readTwo (performs_of_eq_next ?_)
    rw [hiByte_join, loByte_join]
    rfl
  | lhld addr =>
    refine performs_readTwo (performs_of_eq_next ?_)
    rw [withPair_join]
    rfl
  | shld addr =>
    refine performs_writeTwo ?_
    rw [hiByte_pairValue, loByte_pairValue]
    rfl
  | xchg =>
    have hpairs : exec .xchg s = .next
        (((s.withPair .hl (join s.regs.d s.regs.e)).withPair .de (join s.regs.h s.regs.l)).advance 1) := rfl
    rw [withPair_join, withPair_join] at hpairs
    exact performs_of_eq_next hpairs
  | xthl =>
    refine performs_readTwo (performs_writeTwo ?_)
    rw [hiByte_pairValue, loByte_pairValue, withPair_join]
    rfl
  | mvi dst d =>
    rw [storedAt_mvi]
    exact performs_writeOperand rfl
  | mov dst src =>
    have hne : ¬ (dst = .m ∧ src = .m) := by
      rintro ⟨rfl, rfl⟩
      cases hwf
    have hexec : exec (.mov dst src) s =
        bindR (readOperand s src) fun v => bindR (writeOperand s dst v) fun t => .next (t.advance 1) := if_neg hne
    rw [hexec, storedAt_mov]
    exact performs_readOperand (performs_writeOperand rfl)

/-- Of the terms and settings that `exec_performs` leaves out, none has a next state. -/
theorem wellFormed_of_exec_eq_next {i : Instr} {s t : State} (h : exec i s = .next t) :
    i.wellFormed = true ∧ (usesPairCode11 i = true → s.cfg.rp11Arith = .sp) := by
  cases i with
  | mov dst src =>
    refine ⟨?_, nofun⟩
    cases hwf : (Instr.mov dst src).wellFormed with
    | true => rfl
    | false =>
      have hmm : dst = .m ∧ src = .m := by simpa [Instr.wellFormed] using hwf
      have hexec : exec (.mov dst src) s = .refused (.unspecifiedByte 0x76#8) := if_pos hmm
      exact nomatch hexec.symm.trans h
  | dadSp | inxSp | dcxSp => exact ⟨rfl, fun _ => (withRp11_eq_next.1 h).1⟩
  | _ => exact ⟨rfl, nofun⟩

/-- When an instruction completes, and with which state: the inversion that the proofs about every instruction use. -/
theorem exec_eq_next_iff {i : Instr} {s t : State} :
    exec i s = .next t ↔
      i.wellFormed = true ∧ (usesPairCode11 i = true → s.cfg.rp11Arith = .sp) ∧
        (∀ a ∈ readAt i s, memPresent s.cfg a = true) ∧ (∀ a ∈ storedAt i s, memWritable s.cfg a = true) ∧
        t = stateAfter i s := by
  constructor
  case mpr =>
    rintro ⟨hwf, hrp11, hreads, hstores, rfl⟩
    exact (exec_performs hwf hrp11).completes hreads hstores
  case mp =>
    intro h
    obtain ⟨hwf, hrp11⟩ := wellFormed_of_exec_eq_next h
    have hperforms := exec_performs hwf hrp11
    have hreads : ∀ a ∈ readAt i s, memPresent s.cfg a = true := by
      intro a ha
      by_contra habsent
      obtain ⟨b, hstuck⟩ := hperforms.stuckRead ⟨a, ha, Bool.eq_false_iff.2 habsent⟩
      exact nomatch hstuck.symm.trans h
    have hstores : ∀ a ∈ storedAt i s, memWritable s.cfg a = true := by
      intro a ha
      by_contra hreadOnly
      obtain ⟨b, hstuck⟩ := hperforms.stuckWrite hreads ⟨a, ha, Bool.eq_false_iff.2 hreadOnly⟩
      exact nomatch hstuck.symm.trans h
    rw [hperforms.completes hreads hstores] at h
    cases h
    exact ⟨hwf, hrp11, hreads, hstores, rfl⟩

end Sys2Proof.Proofs
end

section
/-! PROOFS. The whole machine: what every instruction changes and leaves, read off `exec_eq_next_iff`, and what follows for a
step and for a run. -/

namespace Sys2Proof.Proofs

open Sys2Proof.Machine Sys2Proof.Claims

/-- The inversion in the form the frames need: only the state after is looked at. -/
theorem eq_stateAfter_of_exec {i : Instr} {s t : State} (h : exec i s = .next t) : t = stateAfter i s := by
  obtain ⟨-, -, -, -, rfl⟩ := exec_eq_next_iff.1 h
  rfl

/-! ### Memory and the parameters -/

theorem read_stateAfter_of_not_stored {i : Instr} {s : State} {a : Word} (h : a ∉ storedAt i s) :
    (stateAfter i s).mem.read a = s.mem.read a :=
  read_writeCells_of_not_mem (by rwa [cellsStored_addresses]) s.mem

/-- Settles O13: an instruction stores a list of bytes, and each store keeps the canonical form. -/
theorem stepKeepsMemoryCanonicalAndParameters : Obligations.StepKeepsMemoryCanonicalAndParameters := by
  unfold Obligations.StepKeepsMemoryCanonicalAndParameters
  intro s t hwf hstep
  obtain ⟨i, -, hexec⟩ := step_eq_next.1 hstep
  obtain rfl := eq_stateAfter_of_exec hexec
  exact ⟨wf_writeCells hwf (cellsStored i s), rfl⟩

/-- An instruction that completes stores to writable addresses only, so every other byte is as before (R56, R64). -/
theorem exec_keeps_unwritable {i : Instr} {s t : State} (h : exec i s = .next t) :
    t.cfg = s.cfg ∧ ∀ a : Word, memWritable s.cfg a = false → t.mem.read a = s.mem.read a := by
  obtain ⟨-, -, -, hstores, rfl⟩ := exec_eq_next_iff.1 h
  refine ⟨rfl, fun a hreadOnly => read_stateAfter_of_not_stored fun ha => ?_⟩
  exact nomatch (hstores a ha).symm.trans hreadOnly

/-- Settles O14, by induction on the number of steps: the parameters, and so the map, are those of the first state. -/
theorem noRunChangesUnwritableMemory : Obligations.NoRunChangesUnwritableMemory := by
  unfold Obligations.NoRunChangesUnwritableMemory
  intro s t hrun
  induction hrun with
  | refl => exact ⟨rfl, fun _ _ => rfl⟩
  | step t u _ hstep ih =>
    obtain ⟨hcfg, hmem⟩ := ih
    obtain ⟨i, -, hexec⟩ := step_eq_next.1 hstep
    obtain ⟨hcfg', hmem'⟩ := exec_keeps_unwritable hexec
    rw [hcfg] at hcfg' hmem'
    exact ⟨hcfg', fun a ha => (hmem' a ha).trans (hmem a ha)⟩

/-- Settles O15: the bytes an instruction stores are at the addresses of `storedAt`. -/
theorem everyStoreStaysInItsBytes : Obligations.EveryStoreStaysInItsBytes := by
  unfold Obligations.EveryStoreStaysInItsBytes
  intro i s t hexec a ha
  obtain rfl := eq_stateAfter_of_exec hexec
  exact read_stateAfter_of_not_stored ha

/-! ### Status bits, `pc` and `sp` -/

theorem flagsAfter_of_none {i : Instr} (h : statusWritten i = .none) (s : State) : flagsAfter i s = s.flags := by
  cases i with
  | popPsw | dad | dadSp | rlc | rrc | ral | rar | add | adc | sub | sbb | ana | xra | ora | cmp | adi | aci | sui | sbi | ani
  | xri | ori | cpi => cases h
  | _ => rfl

theorem flagsAfter_of_carry {i : Instr} (h : statusWritten i = .carry) (s : State) :
    flagsAfter i s = { s.flags with cy := (flagsAfter i s).cy } := by
  cases i with
  | dad | dadSp | rlc | rrc | ral | rar => rfl
  | _ => cases h

theorem flagsAfter_of_allButAux {i : Instr} (h : statusWritten i = .allButAux) (s : State) :
    (flagsAfter i s).cy = false ∧ (s.cfg.logicAc = .unaffected → (flagsAfter i s).ac = s.flags.ac) := by
  cases i with
  | ana | ani => exact ⟨rfl, fun hac => by simp only [flagsAfter, Flags.ofLogic_ac, hac, andAc]⟩
  | xra | ora | xri | ori => exact ⟨rfl, fun hac => by simp only [flagsAfter, Flags.ofLogic_ac, hac, orAc]⟩
  | _ => cases h

/-- Settles O16, class by class of R31's list. -/
theorem statusBitsAreWrittenAsListed : Obligations.StatusBitsAreWrittenAsListed := by
  unfold Obligations.StatusBitsAreWrittenAsListed
  intro i s t hexec
  obtain rfl := eq_stateAfter_of_exec hexec
  exact ⟨fun h => flagsAfter_of_none h s, fun h => flagsAfter_of_carry h s, fun h => flagsAfter_of_allButAux h s⟩

theorem pcAfter_of_not_branch {i : Instr} (h : isBranch i = false) (s : State) :
    pcAfter i s = s.pc + BitVec.ofNat 16 (encode i).length := by
  cases i with
  | pchl | jmp | jc | jnc | jz => cases h
  | _ => rfl

/-- Settles O17: only the branches have a `pc` of their own. -/
theorem pcAdvancesByTheLength : Obligations.PcAdvancesByTheLength := by
  unfold Obligations.PcAdvancesByTheLength
  intro i s t hbranch hexec
  obtain rfl := eq_stateAfter_of_exec hexec
  exact pcAfter_of_not_branch hbranch s

theorem spAfter_of_not_writesSp {i : Instr} (h : writesSp i = false) (s : State) : spAfter i s = s.sp := by
  cases i with
  | push | pushPsw | pop | popPsw | inxSp | dcxSp | sphl | lxiSp => cases h
  | _ => rfl

/-- Settles O18: only the instructions of R24 have an `sp` of their own. -/
theorem stackPointerWriters : Obligations.StackPointerWriters := by
  unfold Obligations.StackPointerWriters
  intro i s t hsp hexec
  obtain rfl := eq_stateAfter_of_exec hexec
  exact spAfter_of_not_writesSp hsp s

/-! ### The Auxiliary Carry Bit as an input -/

/-- The state with another Auxiliary Carry Bit. -/
def withAux (s : State) (ac : Bool) : State := s.withFlags { s.flags with ac := ac }

theorem eq_withAux_of_sameButAux {s t : State} (h : SameButAux s t) : t = withAux s t.flags.ac := by
  obtain ⟨regs, flags, sp, pc, mem, cfg⟩ := t
  obtain ⟨rfl, hflags, rfl, rfl, rfl, rfl⟩ := h
  exact congrArg (State.withFlags s) hflags

/-- The addresses read and stored to are computed from registers and operands: no status bit is an input. -/
theorem readAt_withAux (i : Instr) (s : State) (ac : Bool) : readAt i (withAux s ac) = readAt i s := by
  cases i <;> rfl

theorem storedAt_withAux (i : Instr) (s : State) (ac : Bool) : storedAt i (withAux s ac) = storedAt i s := by
  cases i <;> rfl

/-- PUSH PSW alone stores the bit; the logical instructions at most keep it, so that it reaches itself alone. -/
theorem sameButAux_stateAfter {i : Instr} (h : i ≠ .pushPsw) (s : State) (ac : Bool) :
    SameButAux (stateAfter i s) (stateAfter i (withAux s ac)) := by
  have hcells : cellsStored i (withAux s ac) = cellsStored i s := by
    cases i with
    | pushPsw => exact absurd rfl h
    | _ => rfl
  have hregs : regsAfter i (withAux s ac) = regsAfter i s := by cases i <;> rfl
  have hflags : flagsAfter i (withAux s ac) =
      { flagsAfter i s with ac := (flagsAfter i (withAux s ac)).ac } := by cases i <;> rfl
  have hsp : spAfter i (withAux s ac) = spAfter i s := by cases i <;> rfl
  have hpc : pcAfter i (withAux s ac) = pcAfter i s := by cases i <;> rfl
  exact ⟨hregs, hflags, hsp, hpc, congrArg (writeCells s.mem) hcells, rfl⟩

/-- Settles O19: the conditions for completing do not mention the bit, and the states after differ in it alone. -/
theorem onlyPushPswReadsAux : Obligations.OnlyPushPswReadsAux := by
  unfold Obligations.OnlyPushPswReadsAux
  intro i s s2 t hi hsame hexec
  obtain ⟨hwf, hrp11, hreads, hstores, rfl⟩ := exec_eq_next_iff.1 hexec
  rw [eq_withAux_of_sameButAux hsame]
  refine ⟨stateAfter i (withAux s s2.flags.ac), exec_eq_next_iff.2 ⟨hwf, hrp11, ?_, ?_, rfl⟩, sameButAux_stateAfter hi s _⟩
  · rw [readAt_withAux]; exact hreads
  · rw [storedAt_withAux]; exact hstores

/-! ### Full memory -/

/-- Settles O20: on full memory every byte is present and writable, so nothing that `exec_eq_next_iff` asks for is missing. -/
theorem everyInstructionCompletesOnFullMemory : Obligations.EveryInstructionCompletesOnFullMemory := by
  unfold Obligations.EveryInstructionCompletesOnFullMemory
  intro i s hwf hfull hsp
  exact ⟨stateAfter i s, exec_eq_next_iff.2
    ⟨hwf, fun _ => hsp, fun a _ => memPresent_of_memWritable (hfull a), fun a _ => hfull a, rfl⟩⟩

end Sys2Proof.Proofs
end

section
/-! PROOFS. One step (spec/70_reset_and_hazards.md R224, R226): what fetch answers on the bytes at `pc`, present or absent, and
the state right after reset. -/

namespace Sys2Proof.Proofs

open Sys2Proof.Machine Sys2Proof.Claims

/-! ### Fetching bytes -/

/-- The `n` bytes of memory from `a` on. -/
def bytesFrom (m : Memory) : Nat → Word → List Byte
  | 0, _ => []
  | n + 1, a => m.read a :: bytesFrom m n (a + 1#16)

theorem bytesFrom_of_append {m : Memory} {n : Nat} {a : Word} {xs ys : List Byte} (h : bytesFrom m n a = xs ++ ys) :
    bytesFrom m xs.length a = xs := by
  induction xs generalizing n a with
  | nil => rfl
  | cons x xs ih =>
    cases n with
    | zero => nomatch h
    | succ n =>
      obtain ⟨hx, hxs⟩ := List.cons.inj h
      exact congrArg₂ List.cons hx (ih hxs)

theorem add_ofNat_succ (a : Word) (k : Nat) : a + BitVec.ofNat 16 (k + 1) = a + 1#16 + BitVec.ofNat 16 k := by
  rw [Nat.add_comm k 1, BitVec.ofNat_add, BitVec.add_assoc]

theorem fetchByte_of_present {s : State} {a : Word} (h : memPresent s.cfg a = true) :
    fetchByte s a = .next (s.mem.read a) :=
  fetchByte_eq_next.2 ⟨h, rfl⟩

theorem fetchByte_of_absent {s : State} {a : Word} (h : memPresent s.cfg a = false) :
    fetchByte s a = .fault (.stuckFetch a) := by
  simp [fetchByte, h]

theorem fetchBytes_of_present {s : State} {n : Nat} {a : Word}
    (h : ∀ k, k < n → memPresent s.cfg (a + BitVec.ofNat 16 k) = true) :
    fetchBytes s n a = .next (bytesFrom s.mem n a) := by
  induction n generalizing a with
  | zero => rfl
  | succ n ih =>
    have hfirst : memPresent s.cfg a = true := by simpa using h 0 (Nat.succ_pos n)
    have hrest : ∀ k, k < n → memPresent s.cfg (a + 1#16 + BitVec.ofNat 16 k) = true := fun k hk => by
      rw [← add_ofNat_succ]
      exact h (k + 1) (Nat.succ_lt_succ hk)
    rw [fetchBytes, fetchByte_of_present hfirst, bindR_next, ih hrest, bindR_next, bytesFrom]

/-- The byte named is the first one that is absent (log entry 27). -/
theorem fetchBytes_of_absent {s : State} {n k : Nat} {a : Word} (hk : k < n)
    (hbefore : ∀ j, j < k → memPresent s.cfg (a + BitVec.ofNat 16 j) = true)
    (habsent : memPresent s.cfg (a + BitVec.ofNat 16 k) = false) :
    fetchBytes s n a = .fault (.stuckFetch (a + BitVec.ofNat 16 k)) := by
  induction n generalizing a k with
  | zero => exact absurd hk (Nat.not_lt_zero k)
  | succ n ih =>
    cases k with
    | zero =>
      rw [BitVec.add_zero] at habsent ⊢
      rw [fetchBytes, fetchByte_of_absent habsent, bindR_fault]
    | succ k =>
      have hfirst : memPresent s.cfg a = true := by simpa using hbefore 0 (Nat.succ_pos k)
      rw [add_ofNat_succ] at habsent ⊢
      have hnext : ∀ j, j < k → memPresent s.cfg (a + 1#16 + BitVec.ofNat 16 j) = true := fun j hj => by
        rw [← add_ofNat_succ]
        exact hbefore (j + 1) (Nat.succ_lt_succ hj)
      have hrest := ih (a := a + 1#16) (Nat.lt_of_succ_lt_succ hk) hnext habsent
      rw [fetchBytes, fetchByte_of_present hfirst, bindR_next, hrest, bindR_fault]

/-! ### The decoded instruction is the one run -/

/-- Fetch answers an instruction whose encoding stands at `pc` in present memory (R226). -/
theorem fetch_of_bytes {s : State} {i : Instr} (hend : s.cfg.endPc ≠ some s.pc) (hwf : i.wellFormed = true)
    (hlength : instrLength (s.mem.read s.pc) = some (encode i).length)
    (hpresent : ∀ k, k < (encode i).length → memPresent s.cfg (s.pc + BitVec.ofNat 16 k) = true)
    (hbytes : bytesFrom s.mem (encode i).length s.pc = encode i) : fetch s = .next i := by
  have hpos : 0 < (encode i).length := by
    obtain ⟨form, -, hform⟩ := instrLength_eq_some.1 hlength
    rw [← hform]
    cases form <;> exact Nat.succ_pos _
  have hfirst : memPresent s.cfg s.pc = true := by simpa using hpresent 0 hpos
  have hdecode : decode (encode i) = .instr i [] := by
    simpa using decodeOfEncodeGivesInstruction i [] hwf
  simp only [fetch, if_neg hend, fetchByte_of_present hfirst, fetchBytes_of_present hpresent, hbytes, hlength, hdecode,
    bindR_next]

/-- Settles O6: the bytes at `pc` begin with the instruction's encoding, which is what fetch reads and decodes. -/
theorem stepRunsTheDecodedInstruction : Obligations.StepRunsTheDecodedInstruction := by
  unfold Obligations.StepRunsTheDecodedInstruction
  intro s i rest hend hdecode hpresent
  obtain ⟨hwf, happend, hlength⟩ := decode_eq_instr hdecode
  have hthree : bytesFrom s.mem 3 s.pc = encode i ++ rest := by
    rw [← happend]
    simp [bytesFrom, BitVec.add_assoc]
  have hfetch : fetch s = .next i := fetch_of_bytes hend hwf hlength hpresent (bytesFrom_of_append hthree)
  rw [step, hfetch, bindR_next]

/-- Three bytes placed at an address are read back from it and the two after it, at the wrap as well. -/
theorem read_placeBytes_three (m : Memory) (a : Word) (x y z : Byte) :
    (placeBytes m a [x, y, z]).read a = x ∧ (placeBytes m a [x, y, z]).read (a + 1#16) = y ∧
      (placeBytes m a [x, y, z]).read (a + 2#16) = z := by
  have h2 : a + 1#16 + 1#16 = a + 2#16 := by rw [BitVec.add_assoc]; rfl
  have h01 : a ≠ a + 1#16 := by bv_omega
  have h02 : a ≠ a + 2#16 := by bv_omega
  have h12 : a + 1#16 ≠ a + 2#16 := by bv_omega
  simp [placeBytes, h2, Memory.read_write, h01, h02, h12]

/-- Settles O10: what `withFetchWord` places is what stands at `pc`, and O6 runs it. -/
theorem placedWordIsRunNext : Obligations.PlacedWordIsRunNext := by
  unfold Obligations.PlacedWordIsRunNext
  intro s nbits w i hword hend hpresent
  obtain ⟨rest, hdecode⟩ : ∃ rest, decode (tableBytes nbits w) = .instr i rest := by
    cases hbytes : decode (tableBytes nbits w) with
    | instr j rest =>
      rw [decodeTableWord, hbytes] at hword
      cases hword
      exact ⟨rest, rfl⟩
    | rejected why =>
      rw [decodeTableWord, hbytes] at hword
      cases hword
  obtain ⟨h0, h1, h2⟩ := read_placeBytes_three s.mem s.pc (BitVec.ofNat 8 (w % 2 ^ nbits))
    (BitVec.ofNat 8 (w % 2 ^ nbits / 256)) (BitVec.ofNat 8 (w % 2 ^ nbits / 65536))
  refine stepRunsTheDecodedInstruction (s.withFetchWord nbits w) i rest hend ?_ hpresent
  rw [State.withFetchWord_mem, State.withFetchWord_pc, tableBytes, h0, h1, h2]
  exact hdecode

/-! ### Steps without a next state -/

/-- Settles O7: fetch reads Byte 1 first and then all bytes it announces, in ascending order. -/
theorem stepIsStuckOnAnAbsentInstructionByte : Obligations.StepIsStuckOnAnAbsentInstructionByte := by
  unfold Obligations.StepIsStuckOnAnAbsentInstructionByte
  intro s hend
  refine ⟨fun habsent => ?first, fun n k hfirst hlength hk hbefore habsent => ?later⟩
  case first => simp only [step, fetch, if_neg hend, fetchByte_of_absent habsent, bindR_fault]
  case later =>
    simp only [step, fetch, if_neg hend, fetchByte_of_present hfirst, hlength, fetchBytes_of_absent hk hbefore habsent,
      bindR_next, bindR_fault]

/-- Settles O8: the 69 bytes have no length (`instrLength_eq_none_iff`), and fetch refuses such a byte. -/
theorem stepRefusesUnspecifiedBytes : Obligations.StepRefusesUnspecifiedBytes := by
  unfold Obligations.StepRefusesUnspecifiedBytes
  intro s hend hfirst hbyte
  have hlength := (instrLength_eq_none_iff _).2 hbyte
  simp only [step, fetch, if_neg hend, fetchByte_of_present hfirst, hlength, bindR_next, bindR_refused]

/-- Settles O9: fetch tests for END_PC before it reads a byte. -/
theorem noStepAtEndPc : Obligations.NoStepAtEndPc := by
  unfold Obligations.NoStepAtEndPc
  intro s hfinal
  have hend : s.cfg.endPc = some s.pc := hfinal
  simp only [step, fetch, if_pos hend, bindR_fault]

/-! ### Full memory -/

/-- Three bytes are enough for every instruction (R70). -/
theorem exists_decode_of_not_unspecified {b1 : Byte} (h : b1 ∉ unspecifiedBytes) (b2 b3 : Byte) :
    ∃ i rest, decode [b1, b2, b3] = .instr i rest := by
  obtain ⟨form, hform⟩ := Option.ne_none_iff_exists'.1 (mt decodeFirst_eq_none_iff.1 h)
  rw [decode_of_some [b2, b3] hform]
  cases form <;> exact ⟨_, _, rfl⟩

/-- Settles O21: fetch reads a known first byte only (`fetch_eq_next`); and where it is known, O6 gives the instruction and O20
its next state. -/
theorem onlyUnspecifiedBytesStopFullMemory : Obligations.OnlyUnspecifiedBytesStopFullMemory := by
  unfold Obligations.OnlyUnspecifiedBytesStopFullMemory
  intro s hfull hsp
  constructor
  case mp =>
    rintro ⟨t, hstep⟩
    obtain ⟨i, hfetch, -⟩ := step_eq_next.1 hstep
    obtain ⟨hend, -, n, -, -, hlength, -, -⟩ := fetch_eq_next hfetch
    exact ⟨hend, fun hbyte => nomatch ((instrLength_eq_none_iff _).2 hbyte).symm.trans hlength⟩
  case mpr =>
    rintro ⟨hend, hbyte⟩
    obtain ⟨i, rest, hdecode⟩ :=
      exists_decode_of_not_unspecified hbyte (s.mem.read (s.pc + 1#16)) (s.mem.read (s.pc + 2#16))
    obtain ⟨hwf, -, -⟩ := decode_eq_instr hdecode
    rw [stepRunsTheDecodedInstruction s i rest hend hdecode fun _ _ => memPresent_of_memWritable (hfull _)]
    exact everyInstructionCompletesOnFullMemory i s hwf hfull hsp

/-! ### Reset -/

theorem fullMemory_standard : fullMemory Config.standard := by
  intro a
  have := a.isLt
  simpa [Config.standard, memWritable, regionCovers] using this

/-- Settles O11: all but the full map are the values written in `State.reset`. -/
theorem resetIsALaunchState : Obligations.ResetIsALaunchState := by
  unfold Obligations.ResetIsALaunchState
  exact ⟨rfl, rfl, rfl, rfl, rfl, rfl, fun _ => rfl, fullMemory_standard⟩

/-- Settles O12: an empty list of cells is canonical. -/
theorem resetMemoryIsCanonical : Obligations.ResetMemoryIsCanonical := by
  unfold Obligations.ResetMemoryIsCanonical
  exact ⟨List.Pairwise.nil, nofun⟩

end Sys2Proof.Proofs
end

section
/-! PROOFS. The instructions that move bytes (spec/40_register_pair.md, 42_data_transfer.md, 44_direct_addressing.md,
45_immediate.md): what a load and a store leave, read off `exec_eq_next_iff` once, and then each instruction's own fields. -/

namespace Sys2Proof.Proofs

open Sys2Proof.Machine Sys2Proof.Claims

/-! ### Loads and stores -/

/-- The instructions that write no status bit and go on after themselves: every load and every store is one of them. -/
def MovesData (i : Instr) : Prop := i.wellFormed = true ∧ statusWritten i = .none ∧ isBranch i = false

/-- A load: no byte is stored, so only registers, `sp` and `pc` differ. -/
theorem loads_stateAfter {i : Instr} {s : State} (hmoves : MovesData i)
    (hrp11 : usesPairCode11 i = true → s.cfg.rp11Arith = .sp) (hstores : storedAt i s = [])
    (hreads : ∀ a ∈ readAt i s, memPresent s.cfg a = true) :
    Loads i s (regsAfter i s) (spAfter i s) (encode i).length := by
  obtain ⟨hwf, hstatus, hbranch⟩ := hmoves
  have hnone : ∀ a : Word, a ∉ storedAt i s := by rw [hstores]; nofun
  have hexec : exec i s = .next (stateAfter i s) :=
    exec_eq_next_iff.2 ⟨hwf, hrp11, hreads, fun a ha => absurd ha (hnone a), rfl⟩
  exact ⟨_, hexec, rfl, flagsAfter_of_none hstatus s, rfl, pcAfter_of_not_branch hbranch s, rfl,
    fun a => read_stateAfter_of_not_stored (hnone a)⟩

/-- A store: the listed bytes, `sp` and `pc` alone differ. -/
theorem stores_stateAfter {i : Instr} {s : State} (hmoves : MovesData i) (hrp11 : usesPairCode11 i = false)
    (hregs : regsAfter i s = s.regs) (hnodup : (storedAt i s).Nodup)
    (hreads : ∀ a ∈ readAt i s, memPresent s.cfg a = true) (hstores : ∀ a ∈ storedAt i s, memWritable s.cfg a = true) :
    Stores i s (cellsStored i s) (spAfter i s) (encode i).length := by
  obtain ⟨hwf, hstatus, hbranch⟩ := hmoves
  have hexec : exec i s = .next (stateAfter i s) :=
    exec_eq_next_iff.2 ⟨hwf, fun h => (nomatch hrp11.symm.trans h), hreads, hstores, rfl⟩
  have haddresses := cellsStored_addresses i s
  refine ⟨_, hexec, hregs, flagsAfter_of_none hstatus s, rfl, pcAfter_of_not_branch hbranch s, rfl, ?_, ?_⟩
  · exact read_writeCells_of_mem (by rwa [haddresses]) s.mem
  · intro a ha
    rw [haddresses] at ha
    exact read_stateAfter_of_not_stored ha

theorem forall_mem_two {p : Word → Prop} {a b : Word} (ha : p a) (hb : p b) : ∀ x ∈ [a, b], p x :=
  List.forall_mem_cons.2 ⟨ha, List.forall_mem_singleton.2 hb⟩

/-- An address and the next one are two addresses, at the wrap as well (R55). -/
theorem nodup_address_next (a : Word) : [a, a + 1#16].Nodup := by
  have : a ≠ a + 1#16 := by bv_omega
  simp [this]

theorem nodup_below_sp (a : Word) : [a - 1#16, a - 2#16].Nodup := by
  have : a - 1#16 ≠ a - 2#16 := by bv_omega
  simp [this]

/-! ### PUSH and POP -/

/-- Settles O23: two bytes are stored and no register is written. -/
theorem pushStoresThePair : Obligations.PushStoresThePair := by
  unfold Obligations.PushStoresThePair
  intro rp s h1 h2
  exact stores_stateAfter (i := .push rp) ⟨rfl, rfl, rfl⟩ rfl rfl (nodup_below_sp s.sp) nofun (forall_mem_two h1 h2)

/-- Settles O25: a load of the pair from the two bytes at `sp`. -/
theorem popLoadsThePair : Obligations.PopLoadsThePair := by
  unfold Obligations.PopLoadsThePair
  intro rp s h0 h1
  exact loads_stateAfter (i := .pop rp) ⟨rfl, rfl, rfl⟩ nofun rfl (forall_mem_two h0 h1)

/-- The Status Bit Register bit by bit (R27). -/
theorem flagsByte_bits (f : Flags) :
    (flagsByte f).getLsbD 7 = f.s ∧ (flagsByte f).getLsbD 6 = f.z ∧ (flagsByte f).getLsbD 5 = false ∧
      (flagsByte f).getLsbD 4 = f.ac ∧ (flagsByte f).getLsbD 3 = false ∧ (flagsByte f).getLsbD 2 = f.p ∧
      (flagsByte f).getLsbD 1 = true ∧ (flagsByte f).getLsbD 0 = f.cy := by
  obtain ⟨cy, ac, s, z, p⟩ := f
  revert cy ac s z p
  decide

theorem setFlags_flagsByte (f : Flags) : setFlags (flagsByte f) = f := by
  obtain ⟨h7, h6, -, h4, -, h2, -, h0⟩ := flagsByte_bits f
  rw [setFlags, h7, h6, h4, h2, h0]

/-- Settles O49: the first half is `setFlags_flagsByte`; the second compares the eight bits. -/
theorem statusByteKeepsFiveBits : Obligations.StatusByteKeepsFiveBits := by
  unfold Obligations.StatusByteKeepsFiveBits
  refine ⟨setFlags_flagsByte, fun v => BitVec.eq_of_getLsbD_eq fun k hk => ?_⟩
  obtain ⟨h7, h6, h5, h4, h3, h2, h1, h0⟩ := flagsByte_bits (setFlags v)
  rw [BitVec.getLsbD_or, BitVec.getLsbD_and]
  interval_cases k
  · exact h0.trans (by simp [setFlags])
  · exact h1.trans (by simp)
  · exact h2.trans (by simp [setFlags])
  · exact h3.trans (by simp)
  · exact h4.trans (by simp [setFlags])
  · exact h5.trans (by simp)
  · exact h6.trans (by simp [setFlags])
  · exact h7.trans (by simp [setFlags])

/-- Settles O24: the status byte is `flagsByte`, and the parameter says which of the two cells holds it. -/
theorem pushPswStoresStatusAndA : Obligations.PushPswStoresStatusAndA := by
  unfold Obligations.PushPswStoresStatusAndA
  intro s h1 h2
  have hstores := stores_stateAfter (i := .pushPsw) (s := s) ⟨rfl, rfl, rfl⟩ rfl rfl (nodup_below_sp s.sp) nofun
    (forall_mem_two h1 h2)
  refine ⟨flagsByte s.flags, flagsByte_bits s.flags, fun hhigh => ?_, fun hlow => ?_⟩
  · simp only [cellsStored, hhigh, if_true] at hstores
    exact hstores
  · simp only [cellsStored, hlow, Bool.false_eq_true, if_false] at hstores
    exact hstores

theorem exec_popPsw_of_present {s : State} (h0 : memPresent s.cfg s.sp = true) (h1 : memPresent s.cfg (s.sp + 1#16) = true) :
    exec .popPsw s = .next (stateAfter .popPsw s) :=
  exec_eq_next_iff.2 ⟨rfl, nofun, forall_mem_two h0 h1, nofun, rfl⟩

/-- Settles O26: `f` is the byte that the parameter selects for the status bits; A takes the other one. -/
theorem popPswLoadsStatusAndA : Obligations.PopPswLoadsStatusAndA := by
  unfold Obligations.PopPswLoadsStatusAndA
  intro s h0 h1
  refine ⟨stateAfter .popPsw s, if s.cfg.pswFlagsHigh then s.mem.read (s.sp + 1#16) else s.mem.read s.sp,
    exec_popPsw_of_present h0 h1, rfl, rfl, rfl, rfl, fun _ => rfl, fun hhigh => ?_, fun hlow => ?_, rfl, rfl, rfl, rfl, rfl⟩
  · exact ⟨if_pos hhigh, if_pos hhigh⟩
  · have hlow' : ¬ s.cfg.pswFlagsHigh = true := by rw [hlow]; nofun
    exact ⟨if_neg hlow', if_neg hlow'⟩

/-! ### A POP after a PUSH -/

/-- The two bytes pushed are on top of the stack for the next POP, and present since they were writable (R56, R64). -/
theorem stack_after_push (s : State) (hi lo : Byte) :
    (writeCells s.mem [(s.sp - 1#16, hi), (s.sp - 2#16, lo)]).read (s.sp - 2#16 + 1#16) = hi ∧
      (writeCells s.mem [(s.sp - 1#16, hi), (s.sp - 2#16, lo)]).read (s.sp - 2#16) = lo := by
  have hsp : s.sp - 2#16 + 1#16 = s.sp - 1#16 := by bv_omega
  rw [hsp]
  have hread := read_writeCells_of_mem (cells := [(s.sp - 1#16, hi), (s.sp - 2#16, lo)]) (nodup_below_sp s.sp) s.mem
  exact ⟨hread _ List.mem_cons_self, hread _ (List.mem_cons_of_mem _ List.mem_cons_self)⟩

theorem stack_present_after_push {s : State} (h1 : memWritable s.cfg (s.sp - 1#16) = true)
    (h2 : memWritable s.cfg (s.sp - 2#16) = true) :
    ∀ a ∈ [s.sp - 2#16, s.sp - 2#16 + 1#16], memPresent s.cfg a = true := by
  have hsp : s.sp - 2#16 + 1#16 = s.sp - 1#16 := by bv_omega
  rw [hsp]
  exact forall_mem_two (memPresent_of_memWritable h2) (memPresent_of_memWritable h1)

theorem exec_push_of_writable {s : State} (rp : Pair) (h1 : memWritable s.cfg (s.sp - 1#16) = true)
    (h2 : memWritable s.cfg (s.sp - 2#16) = true) : exec (.push rp) s = .next (stateAfter (.push rp) s) :=
  exec_eq_next_iff.2 ⟨rfl, nofun, nofun, forall_mem_two h1 h2, rfl⟩

theorem exec_pushPsw_of_writable {s : State} (h1 : memWritable s.cfg (s.sp - 1#16) = true)
    (h2 : memWritable s.cfg (s.sp - 2#16) = true) : exec .pushPsw s = .next (stateAfter .pushPsw s) :=
  exec_eq_next_iff.2 ⟨rfl, nofun, nofun, forall_mem_two h1 h2, rfl⟩

theorem sub_two_add_two (a : Word) : a - 2#16 + 2#16 = a := by bv_omega

/-- Settles O28: the bytes that POP reads are the two that PUSH stored. -/
theorem popOfAPushedPairCopiesIt : Obligations.PopOfAPushedPairCopiesIt := by
  unfold Obligations.PopOfAPushedPairCopiesIt
  intro src dst s h1 h2
  have hpop : exec (.pop dst) (stateAfter (.push src) s) = .next (stateAfter (.pop dst) (stateAfter (.push src) s)) :=
    exec_eq_next_iff.2 ⟨rfl, nofun, stack_present_after_push h1 h2, nofun, rfl⟩
  refine ⟨_, _, exec_push_of_writable src h1 h2, hpop, ?_, rfl, sub_two_add_two s.sp⟩
  obtain ⟨hhi, hlo⟩ := stack_after_push s (pairHalves s src).1 (pairHalves s src).2
  calc
    regsAfter (.pop dst) (stateAfter (.push src) s) = regsPaired s dst
        ((writeCells s.mem (cellsStored (.push src) s)).read (s.sp - 2#16 + 1#16))
        ((writeCells s.mem (cellsStored (.push src) s)).read (s.sp - 2#16)) := rfl
    _ = regsPaired s dst (pairHalves s src).1 (pairHalves s src).2 := by rw [cellsStored, hhi, hlo]

/-- Settles O27: at either value of the parameter POP PSW takes A and the status bits from the cells where PUSH PSW put them. -/
theorem popPswUndoesPushPsw : Obligations.PopPswUndoesPushPsw := by
  unfold Obligations.PopPswUndoesPushPsw
  intro s h1 h2
  have hpop : exec .popPsw (stateAfter .pushPsw s) = .next (stateAfter .popPsw (stateAfter .pushPsw s)) :=
    exec_eq_next_iff.2 ⟨rfl, nofun, stack_present_after_push h1 h2, nofun, rfl⟩
  obtain ⟨hhi, hlo⟩ := stack_after_push s (if s.cfg.pswFlagsHigh then flagsByte s.flags else s.regs.a)
    (if s.cfg.pswFlagsHigh then s.regs.a else flagsByte s.flags)
  have hA : accumulatorAfter .popPsw (stateAfter .pushPsw s) = s.regs.a := by
    simp only [accumulatorAfter, stateAfter, spAfter, cellsStored, hhi, hlo]
    cases s.cfg.pswFlagsHigh <;> rfl
  have hflags : flagsAfter .popPsw (stateAfter .pushPsw s) = s.flags := by
    simp only [flagsAfter, stateAfter, spAfter, cellsStored, hhi, hlo]
    cases s.cfg.pswFlagsHigh <;> exact setFlags_flagsByte s.flags
  have hpc : s.pc + 1#16 + 1#16 = s.pc + 2#16 := by bv_omega
  refine ⟨_, _, exec_pushPsw_of_writable h1 h2, hpop, ?_, hflags, sub_two_add_two s.sp, hpc, rfl, ?_⟩
  · exact congrArg (fun a => { s.regs with a := a }) hA
  · exact fun a ha => read_stateAfter_of_not_stored (i := .pushPsw) ha

/-! ### The other register pair instructions -/

/-- Settles O30: the halves of the pair's value one further up or down make that value again. -/
theorem inxAndDcxCountInAPair : Obligations.InxAndDcxCountInAPair := by
  unfold Obligations.InxAndDcxCountInAPair
  intro rp s
  refine ⟨hiByte (pairValue s rp + 1#16), loByte (pairValue s rp + 1#16), hiByte (pairValue s rp - 1#16),
    loByte (pairValue s rp - 1#16), ?inx, ?up, ?dcx, ?down⟩
  case inx => exact loads_stateAfter (i := .inx rp) ⟨rfl, rfl, rfl⟩ nofun rfl nofun
  case dcx => exact loads_stateAfter (i := .dcx rp) ⟨rfl, rfl, rfl⟩ nofun rfl nofun
  case up => rw [toNat_halves, ← toNat_pairValue, BitVec.toNat_add]; rfl
  case down => rw [toNat_halves, ← toNat_pairValue]; bv_omega

/-- Settles O31, as O30 with `sp` in the place of the pair; the parameter lets both complete. -/
theorem inxAndDcxCountInSp : Obligations.InxAndDcxCountInSp := by
  unfold Obligations.InxAndDcxCountInSp
  intro s hsp
  refine ⟨s.sp + 1#16, s.sp - 1#16, ?inx, ?up, ?dcx, ?down⟩
  case inx => exact loads_stateAfter (i := .inxSp) ⟨rfl, rfl, rfl⟩ (fun _ => hsp) rfl nofun
  case dcx => exact loads_stateAfter (i := .dcxSp) ⟨rfl, rfl, rfl⟩ (fun _ => hsp) rfl nofun
  case up => bv_omega
  case down => bv_omega

/-- Settles O32: each of the three asks the parameter first. -/
theorem pairCode11IsRefusedWhenConfigured : Obligations.PairCode11IsRefusedWhenConfigured := by
  unfold Obligations.PairCode11IsRefusedWhenConfigured
  intro s hrefuse
  have hrefused (b1 : Byte) (t : State) : withRp11 s b1 t = .refused (.rp11Refused b1) := by
    simp only [withRp11, hrefuse]
  exact ⟨hrefused _ _, hrefused _ _, hrefused _ _⟩

/-- Settles O33: a load that reads no memory. -/
theorem xchgExchangesHlAndDe : Obligations.XchgExchangesHlAndDe := by
  unfold Obligations.XchgExchangesHlAndDe
  exact fun s => loads_stateAfter (i := .xchg) ⟨rfl, rfl, rfl⟩ nofun rfl nofun

/-- Settles O34: both bytes are read before they are stored to, so HL takes the old ones (R64). -/
theorem xthlExchangesHlAndStack : Obligations.XthlExchangesHlAndStack := by
  unfold Obligations.XthlExchangesHlAndStack
  intro s hp0 hp1 hw0 hw1
  have hexec : exec .xthl s = .next (stateAfter .xthl s) :=
    exec_eq_next_iff.2 ⟨rfl, nofun, forall_mem_two hp0 hp1, forall_mem_two hw0 hw1, rfl⟩
  have hread := read_writeCells_of_mem (cells := cellsStored .xthl s) (nodup_address_next s.sp) s.mem
  refine ⟨_, hexec, rfl, ?_, ?_, fun a ha => read_stateAfter_of_not_stored (i := .xthl) ha, rfl, rfl, rfl, rfl⟩
  · exact hread _ List.mem_cons_self
  · exact hread _ (List.mem_cons_of_mem _ List.mem_cons_self)

/-- Settles O35: `sp` takes the pair HL, whose integer value is `toNat_pairValue`. -/
theorem sphlLoadsSp : Obligations.SphlLoadsSp := by
  unfold Obligations.SphlLoadsSp
  exact fun s => ⟨pairValue s .hl, toNat_pairValue s .hl,
    loads_stateAfter (i := .sphl) ⟨rfl, rfl, rfl⟩ nofun rfl nofun⟩

/-! ### DAD: the 17-bit sum -/

/-- The 17-bit sum holds the integer sum of the two addends (R104). -/
theorem toNat_sum17 (x y : Word) : (x.setWidth 17 + y.setWidth 17 : BitVec 17).toNat = x.toNat + y.toNat := by
  have := x.isLt; have := y.isLt
  simp only [BitVec.toNat_add, BitVec.toNat_setWidth]
  omega

theorem getLsbD_top17 (v : BitVec 17) : v.getLsbD 16 = decide (65536 ≤ v.toNat) :=
  (BitVec.msb_eq_getLsbD_last v).symm.trans (BitVec.msb_eq_decide v)

/-- What DAD does with an addend, from a register pair or from `sp`. -/
theorem doubleAdd_spec (s : State) (v : Word) :
    (doubleAdd s v).regs = { s.regs with h := (doubleAdd s v).regs.h, l := (doubleAdd s v).regs.l } ∧
      (pairValue (doubleAdd s v) .hl).toNat = ((pairValue s .hl).toNat + v.toNat) % 65536 ∧
      (doubleAdd s v).flags = { s.flags with cy := decide (65536 ≤ (pairValue s .hl).toNat + v.toNat) } ∧
      OnlyRegsAndFlags s (doubleAdd s v) 1 := by
  refine ⟨rfl, ?hl, ?carry, rfl, rfl, rfl, fun _ => rfl⟩
  case hl =>
    have hpair : pairValue (doubleAdd s v) .hl = ((pairValue s .hl).setWidth 17 + v.setWidth 17).extractLsb' 0 16 :=
      join_halves _
    rw [hpair, BitVec.extractLsb'_toNat, toNat_sum17]
    rfl
  case carry =>
    rw [← toNat_sum17, ← getLsbD_top17]
    rfl

/-- Settles O29: both forms are `doubleAdd` of their addend. -/
theorem dadAddsIntoHl : Obligations.DadAddsIntoHl := by
  unfold Obligations.DadAddsIntoHl
  intro s
  refine ⟨fun rp => ⟨doubleAdd s (pairValue s rp), rfl, doubleAdd_spec s _⟩, fun hsp => ?_⟩
  exact ⟨doubleAdd s s.sp, withRp11_of_sp hsp _, doubleAdd_spec s s.sp⟩

/-! ### MOV, MVI, STAX, and direct addressing -/

theorem operandAt_of_ne_m {r : Reg8} (h : r ≠ .m) (s : State) : operandAt s r = [] := by
  cases r with
  | m => exact absurd rfl h
  | _ => rfl

/-- Settles O39: with another destination than M nothing is stored, and with M no register is written. -/
theorem movMovesOneByte : Obligations.MovMovesOneByte := by
  unfold Obligations.MovMovesOneByte
  intro dst src s
  refine ⟨fun hdst hreadable => ?load, ?store⟩
  case load =>
    have hwf : (Instr.mov dst src).wellFormed = true := by simp [Instr.wellFormed, hdst]
    exact loads_stateAfter (i := .mov dst src) ⟨hwf, rfl, rfl⟩ nofun
      ((storedAt_mov s dst src).trans (operandAt_of_ne_m hdst s)) (present_operandAt_iff.2 hreadable)
  case store =>
    rintro rfl hsrc hwritable
    have hwf : (Instr.mov .m src).wellFormed = true := by simp [Instr.wellFormed, hsrc]
    have hreads : readAt (.mov .m src) s = [] := operandAt_of_ne_m hsrc s
    exact stores_stateAfter (i := .mov .m src) ⟨hwf, rfl, rfl⟩ rfl rfl (List.nodup_singleton _)
      (by rw [hreads]; nofun) (writable_operandAt_iff.2 hwritable)

/-- Settles O55, as O39 with a data byte in the place of the source. -/
theorem mviMovesTheDataByte : Obligations.MviMovesTheDataByte := by
  unfold Obligations.MviMovesTheDataByte
  intro d s
  refine ⟨fun r hr => ?load, fun hwritable => ?store⟩
  case load =>
    exact loads_stateAfter (i := .mvi r d) ⟨rfl, rfl, rfl⟩ nofun
      ((storedAt_mvi s r d).trans (operandAt_of_ne_m hr s)) nofun
  case store =>
    exact stores_stateAfter (i := .mvi .m d) ⟨rfl, rfl, rfl⟩ rfl rfl (List.nodup_singleton _) nofun
      (writable_operandAt_iff.2 hwritable)

/-- A form that stores A at one address (R131, R160). -/
theorem stores_one_of_writable {i : Instr} {s : State} {a : Word} (hmoves : MovesData i) (hrp11 : usesPairCode11 i = false)
    (hregs : regsAfter i s = s.regs) (hreads : readAt i s = []) (hstored : storedAt i s = [a])
    (hwritable : memWritable s.cfg a = true) : Stores i s (cellsStored i s) (spAfter i s) (encode i).length := by
  refine stores_stateAfter hmoves hrp11 hregs ?_ (by rw [hreads]; nofun) ?_
  · rw [hstored]; exact List.nodup_singleton a
  · rw [hstored]; exact List.forall_mem_singleton.2 hwritable

/-- Settles O40: the decoder's answer for the two bytes, and one store of A at either pair. -/
theorem staxStoresTheAccumulator : Obligations.StaxStoresTheAccumulator := by
  unfold Obligations.StaxStoresTheAccumulator
  refine ⟨decode_one rfl, decode_one rfl, fun s => ⟨fun hbc => ?bc, fun hde => ?de⟩⟩
  case bc => exact stores_one_of_writable (i := .stax .bc) ⟨rfl, rfl, rfl⟩ rfl rfl rfl rfl hbc
  case de => exact stores_one_of_writable (i := .stax .de) ⟨rfl, rfl, rfl⟩ rfl rfl rfl rfl hde

/-- Settles O50: the decoder's answer with the address bytes as variables, and one store of A. -/
theorem staStoresTheAccumulator : Obligations.StaStoresTheAccumulator := by
  unfold Obligations.StaStoresTheAccumulator
  exact ⟨fun lo hi => decode_three rfl lo hi, fun addr s hwritable =>
    stores_one_of_writable (i := .sta addr) ⟨rfl, rfl, rfl⟩ rfl rfl rfl rfl hwritable⟩

/-- Settles O52: the two addresses differ, so each keeps its byte. -/
theorem shldStoresLThenH : Obligations.ShldStoresLThenH := by
  unfold Obligations.ShldStoresLThenH
  intro addr s h0 h1
  exact stores_stateAfter (i := .shld addr) ⟨rfl, rfl, rfl⟩ rfl rfl (nodup_address_next addr) nofun (forall_mem_two h0 h1)

/-- Settles O53: a load of HL from the two bytes at the address. -/
theorem lhldLoadsLThenH : Obligations.LhldLoadsLThenH := by
  unfold Obligations.LhldLoadsLThenH
  intro addr s h0 h1
  exact loads_stateAfter (i := .lhld addr) ⟨rfl, rfl, rfl⟩ nofun rfl (forall_mem_two h0 h1)

/-- Settles O54: LXI SP's two settings differ in which half is which. -/
theorem lxiLoadsSixteenBits : Obligations.LxiLoadsSixteenBits := by
  unfold Obligations.LxiLoadsSixteenBits
  intro b2 b3 s
  have hlxiSp : Loads (.lxiSp (join b3 b2)) s s.regs
      (if s.cfg.lxiSpSwapped then join (loByte (join b3 b2)) (hiByte (join b3 b2)) else join b3 b2) 3 :=
    loads_stateAfter (i := .lxiSp (join b3 b2)) ⟨rfl, rfl, rfl⟩ nofun rfl nofun
  rw [hiByte_join, loByte_join] at hlxiSp
  refine ⟨fun rp => ?pair, fun hplain => ?plain, fun hswapped => ?swapped⟩
  case pair =>
    have hlxi : Loads (.lxi rp (join b3 b2)) s (regsPaired s rp (hiByte (join b3 b2)) (loByte (join b3 b2))) s.sp 3 :=
      loads_stateAfter (i := .lxi rp (join b3 b2)) ⟨rfl, rfl, rfl⟩ nofun rfl nofun
    rw [hiByte_join, loByte_join] at hlxi
    exact hlxi
  case plain =>
    rw [hplain] at hlxiSp
    exact hlxiSp
  case swapped =>
    rw [hswapped] at hlxiSp
    exact hlxiSp

/-! ### JZ -/

/-- Settles O58: JZ's condition is the Zero Bit (C6). -/
theorem jzTestsZero : Obligations.JzTestsZero := by
  unfold Obligations.JzTestsZero
  intro addr s
  have hjz : exec (.jz addr) s = jumpIf s.flags.z addr s := rfl
  exact ⟨fun hset => jumpsTo_of_exec_jumpIf_taken hjz hset, fun hclear => jumpsTo_of_exec_jumpIf_not_taken hjz hclear⟩

end Sys2Proof.Proofs
end

section
/-! PROOFS. Accumulator arithmetic and logic (spec/43_accumulator_alu.md, 45_immediate.md): the adder and the subtracter in
integers, and the tails that a register form and its immediate share. -/

namespace Sys2Proof.Proofs

open Sys2Proof.Machine Sys2Proof.Claims

/-! ### Sign, Zero and Parity -/

theorem getLsbD_bit7 (v : Byte) : v.getLsbD 7 = decide (128 ≤ v.toNat) :=
  (BitVec.msb_eq_getLsbD_last v).symm.trans (BitVec.msb_eq_decide v)

theorem decide_eq_zero (v : Byte) : decide (v = 0x00#8) = decide (v.toNat = 0) :=
  decide_eq_decide.2 BitVec.toNat_inj.symm

/-- The exclusive or of the eight bits counts them modulo 2 (R8): a finite fact about bytes. -/
theorem parity8_eq_decide : ∀ v : Byte, parity8 v = decide (ones v % 2 = 0) := by decide +kernel

theorem resultBits_ofAlu (f : Flags) (r : AluResult) : ResultBits (f.ofAlu r) r.res :=
  ⟨getLsbD_bit7 r.res, decide_eq_zero r.res, (Flags.ofAlu_p f r).trans (parity8_eq_decide r.res)⟩

theorem resultBits_ofLogic (f : Flags) (ac : Bool) (v : Byte) : ResultBits (f.ofLogic ac v) v :=
  ⟨getLsbD_bit7 v, decide_eq_zero v, (Flags.ofLogic_p f ac v).trans (parity8_eq_decide v)⟩

/-! ### The adder and the subtracter in integers -/

theorem toNat_add8_res (a b : Byte) (c : Bool) : (add8 a b c).res.toNat = (a.toNat + b.toNat + c.toNat) % 256 := by
  rw [add8, BitVec.extractLsb'_toNat, add8_sum]
  rfl

theorem add8_cy (a b : Byte) (c : Bool) : (add8 a b c).cy = decide (256 ≤ a.toNat + b.toNat + c.toNat) := by
  rw [add8, getLsbD_top9, add8_sum]

/-- The 5-bit sum of two low nibbles and a carry holds the integer sum. -/
theorem toNat_nibble_sum (a b : Byte) (c : Bool) :
    (nibble5 a + nibble5 b + bitOf 5 c).toNat = a.toNat % 16 + b.toNat % 16 + c.toNat := by
  have := Bool.toNat_le c
  simp only [BitVec.toNat_add, toNat_nibble5, toNat_bitOf 5 (by omega)]
  omega

theorem add8_ac (a b : Byte) (c : Bool) :
    (add8 a b c).ac = decide (16 ≤ a.toNat % 16 + b.toNat % 16 + c.toNat) := by
  rw [add8, getLsbD_top5, toNat_nibble_sum]

/-- The subtracter is the adder on the complement of the operand and of the borrow (R10). -/
theorem sub8_sum (a b : Byte) (c : Bool) :
    (a.setWidth 9 + (~~~b).setWidth 9 + bitOf 9 (!c) : BitVec 9).toNat + b.toNat + c.toNat = a.toNat + 256 := by
  have hb : (~~~b).toNat = 255 - b.toNat := BitVec.toNat_not
  have hc : (!c).toNat + c.toNat = 1 := by cases c <;> rfl
  have := b.isLt
  rw [add8_sum]
  omega

theorem toNat_sub8_res (k : AuxSub) (a b : Byte) (c : Bool) :
    ((sub8 k a b c).res.toNat : Int) = ((a.toNat : Int) - b.toNat - c.toNat) % 256 := by
  have hsum := sub8_sum a b c
  rw [sub8, BitVec.extractLsb'_toNat, Nat.shiftRight_zero]
  omega

theorem sub8_cy (k : AuxSub) (a b : Byte) (c : Bool) :
    (sub8 k a b c).cy = decide (a.toNat < b.toNat + c.toNat) := by
  have hsum := sub8_sum a b c
  rw [sub8, getLsbD_top9, ← decide_not]
  exact decide_eq_decide.2 (by omega)

/-- Settles O46: the carry out of bit 3 of the complemented sum is the absence of a borrow. -/
theorem recommendedAuxSubIsNoNibbleBorrow : Obligations.RecommendedAuxSubIsNoNibbleBorrow := by
  unfold Obligations.RecommendedAuxSubIsNoNibbleBorrow
  intro a v c
  have hv : (~~~v).toNat = 255 - v.toNat := BitVec.toNat_not
  have hc : (!c).toNat + c.toNat = 1 := by cases c <;> rfl
  have := v.isLt
  rw [auxSub, getLsbD_top5, toNat_nibble_sum]
  exact decide_eq_decide.2 (by omega)

/-! ### The tails -/

theorem bindR_readOperand {s : State} {r : Reg8} (h : Readable s r) (f : Byte → Result State) :
    bindR (readOperand s r) f = f (operandByte s r) := by
  cases r with
  | m => rw [readOperand, readByte_of_present (h rfl), bindR_next, operandByte]
  | _ => rfl

theorem adds_of_exec {i : Instr} {s : State} {v : Byte} {c : Bool} {len : Nat}
    (hexec : exec i s = .next (addToA s v c len)) : Adds i s v c len :=
  ⟨_, hexec, rfl, ⟨rfl, rfl, rfl, fun _ => rfl⟩, toNat_add8_res s.regs.a v c, add8_cy s.regs.a v c, add8_ac s.regs.a v c,
    resultBits_ofAlu s.flags (add8 s.regs.a v c)⟩

theorem subtracts_of_exec {i : Instr} {s : State} {v : Byte} {c : Bool} {len : Nat}
    (hexec : exec i s = .next (subFromA s v c len)) : Subtracts i s v c len :=
  ⟨_, hexec, rfl, ⟨rfl, rfl, rfl, fun _ => rfl⟩, toNat_sub8_res s.cfg.auxSub s.regs.a v c,
    sub8_cy s.cfg.auxSub s.regs.a v c, rfl,
    resultBits_ofAlu s.flags (sub8 s.cfg.auxSub s.regs.a v c)⟩

/-- A difference of two bytes is 0 modulo 256 only where they are equal. -/
theorem sub8_res_eq_zero_iff (k : AuxSub) (a v : Byte) : (sub8 k a v false).res = 0x00#8 ↔ v = a := by
  have hres := toNat_sub8_res k a v false
  have ha := a.isLt; have hv := v.isLt
  rw [← BitVec.toNat_inj, ← BitVec.toNat_inj]
  simp only [BitVec.toNat_ofNat, Bool.toNat_false] at *
  omega

theorem compares_of_exec {i : Instr} {s : State} {v : Byte} {len : Nat}
    (hexec : exec i s = .next (compareA s v len)) : Compares i s v len := by
  have hcy := sub8_cy s.cfg.auxSub s.regs.a v false
  have hres := toNat_sub8_res s.cfg.auxSub s.regs.a v false
  rw [Bool.toNat_false, Nat.add_zero] at hcy
  rw [Bool.toNat_false, Int.natCast_zero, Int.sub_zero] at hres
  exact ⟨_, hexec, rfl, ⟨rfl, rfl, rfl, fun _ => rfl⟩, decide_eq_decide.2 (sub8_res_eq_zero_iff _ s.regs.a v), hcy, rfl,
    _, hres, resultBits_ofAlu s.flags (sub8 s.cfg.auxSub s.regs.a v false)⟩

/-- The six logical instructions differ in the result and in what AC becomes. -/
theorem combines_of_exec {f : Bool → Bool → Bool} {i : Instr} {s : State} {v res : Byte} {ac chipAc : Bool} {len : Nat}
    (hexec : exec i s = .next (((s.withA res).withFlags (s.flags.ofLogic ac res)).advance len))
    (hbits : ∀ k, k < 8 → res.getLsbD k = f (s.regs.a.getLsbD k) (v.getLsbD k))
    (hkept : s.cfg.logicAc = .unaffected → ac = s.flags.ac) (hchip : s.cfg.logicAc = .chip → ac = chipAc) :
    Combines f i s v chipAc len :=
  ⟨_, hexec, rfl, ⟨rfl, rfl, rfl, fun _ => rfl⟩, hbits, rfl, hkept, hchip, resultBits_ofLogic s.flags ac res⟩

section
variable {i : Instr} {s : State} {v : Byte} {len : Nat}

theorem combines_and_of_exec (hexec : exec i s = .next (andA s v len)) :
    Combines and i s v (s.regs.a.getLsbD 3 || v.getLsbD 3) len :=
  combines_of_exec hexec (fun _ _ => BitVec.getLsbD_and) (fun h => by rw [h]; rfl) (fun h => by rw [h]; rfl)

theorem combines_xor_of_exec (hexec : exec i s = .next (xorA s v len)) : Combines xor i s v false len :=
  combines_of_exec hexec (fun _ _ => BitVec.getLsbD_xor) (fun h => by rw [h]; rfl) (fun h => by rw [h]; rfl)

theorem combines_or_of_exec (hexec : exec i s = .next (orA s v len)) : Combines or i s v false len :=
  combines_of_exec hexec (fun _ _ => BitVec.getLsbD_or) (fun h => by rw [h]; rfl) (fun h => by rw [h]; rfl)

end

/-! ### The instructions -/

/-- Settles O42: each of the four is the tail `addToA` of its operand and its carry. -/
theorem additionsInIntegers : Obligations.AdditionsInIntegers := by
  unfold Obligations.AdditionsInIntegers
  intro s
  refine ⟨fun r hr => ⟨?add, ?adc⟩, fun d => ⟨?adi, ?aci⟩⟩
  case add => exact adds_of_exec (bindR_readOperand hr _)
  case adc => exact adds_of_exec (bindR_readOperand hr _)
  case adi => exact adds_of_exec rfl
  case aci => exact adds_of_exec rfl

/-- Settles O43: each of the four is the tail `subFromA` of its operand and its borrow. -/
theorem subtractionsInIntegers : Obligations.SubtractionsInIntegers := by
  unfold Obligations.SubtractionsInIntegers
  intro s
  refine ⟨fun r hr => ⟨?sub, ?sbb⟩, fun d => ⟨?sui, ?sbi⟩⟩
  case sub => exact subtracts_of_exec (bindR_readOperand hr _)
  case sbb => exact subtracts_of_exec (bindR_readOperand hr _)
  case sui => exact subtracts_of_exec rfl
  case sbi => exact subtracts_of_exec rfl

/-- Settles O44: both are the tail `compareA`. -/
theorem comparesLeaveTheRegisters : Obligations.ComparesLeaveTheRegisters := by
  unfold Obligations.ComparesLeaveTheRegisters
  exact fun s => ⟨fun r hr => compares_of_exec (bindR_readOperand hr _), fun d => compares_of_exec rfl⟩

/-- Settles O45: a register form and its immediate share one tail, for each of the three functions. -/
theorem logicBitByBit : Obligations.LogicBitByBit := by
  unfold Obligations.LogicBitByBit
  intro s
  refine ⟨fun r hr => ⟨?ana, ?xra, ?ora⟩, fun d => ⟨?ani, ?xri, ?ori⟩⟩
  case ana => exact combines_and_of_exec (bindR_readOperand hr _)
  case xra => exact combines_xor_of_exec (bindR_readOperand hr _)
  case ora => exact combines_or_of_exec (bindR_readOperand hr _)
  case ani => exact combines_and_of_exec rfl
  case xri => exact combines_xor_of_exec rfl
  case ori => exact combines_or_of_exec rfl

/-- What AC is after a subtraction or comparison: `AUX_SUB` of A and of what is taken from it. -/
theorem ac_of_subtrahend {i : Instr} {s t : State} {v : Byte} {c : Bool} (h : subtrahend i s = some (v, c))
    (hexec : exec i s = .next t) : t.flags.ac = auxSub s.cfg.auxSub s.regs.a v c := by
  obtain rfl := eq_stateAfter_of_exec hexec
  cases i with
  | sub | sbb | cmp | sui | sbi | cpi => cases h; rfl
  | _ => nomatch h

/-- Settles O47: the two bits are `AUX_SUB` of the same three arguments. -/
theorem auxSubDependsOnTheOperandsAlone : Obligations.AuxSubDependsOnTheOperandsAlone := by
  unfold Obligations.AuxSubDependsOnTheOperandsAlone
  intro i j s s2 t t2 v c hi hj hcfg hA hexec hexec2
  rw [ac_of_subtrahend hi hexec, ac_of_subtrahend hj hexec2, hcfg, hA]

theorem toNat_decide (p : Prop) [Decidable p] : (decide p).toNat = if p then 1 else 0 := by
  by_cases h : p <;> simp [h]

/-- Settles O48: the low halves' carry or borrow enters the high halves' sum or difference. -/
theorem carryChainsAreSixteenBit : Obligations.CarryChainsAreSixteenBit := by
  unfold Obligations.CarryChainsAreSixteenBit
  rintro s hi lo vhi vlo rfl
  have := hi.isLt; have := s.regs.a.isLt; have := vhi.isLt; have := vlo.isLt
  constructor
  case left =>
    obtain ⟨t, ht, -, -, htA, htCy, -⟩ := ((additionsInIntegers s).2 vlo).1
    obtain ⟨u, hu, -, -, huA, huCy, -⟩ := ((additionsInIntegers (t.withA hi)).2 vhi).2
    have hcarry : (t.withA hi).flags.cy.toNat = if 256 ≤ s.regs.a.toNat + vlo.toNat then 1 else 0 := by
      rw [State.withA_flags, htCy, toNat_decide]; rfl
    simp only [hcarry, State.withA_regs] at huA huCy
    rw [Bool.toNat_false] at htA
    refine ⟨t, u, ht, hu, ?_, huCy.trans (decide_eq_decide.2 ?_)⟩
    · split at huA <;> omega
    · split <;> omega
  case right =>
    obtain ⟨t, ht, -, -, htA, htCy, -⟩ := ((subtractionsInIntegers s).2 vlo).1
    obtain ⟨u, hu, -, -, huA, huCy, -⟩ := ((subtractionsInIntegers (t.withA hi)).2 vhi).2
    have hborrow : (t.withA hi).flags.cy.toNat = if s.regs.a.toNat < vlo.toNat then 1 else 0 := by
      rw [State.withA_flags, htCy, toNat_decide]; rfl
    simp only [hborrow, State.withA_regs] at huA huCy
    rw [Bool.toNat_false] at htA
    refine ⟨t, u, ht, hu, ?_, huCy.trans (decide_eq_decide.2 ?_)⟩
    · split at huA <;> omega
    · split <;> omega

end Sys2Proof.Proofs
end

section
/-! PROOFS. Opposite rotations (spec/41_rotate.md): each of the two shifts undoes the other, given the bit that fell out. -/

namespace Sys2Proof.Proofs

open Sys2Proof.Machine Sys2Proof.Claims

theorem getLsbD_shiftInLow_zero (v : Byte) (c : Bool) : (shiftInLow v c).getLsbD 0 = c :=
  getLsbD_shiftInLow v c (by decide)

theorem getLsbD_shiftInHigh_seven (v : Byte) (c : Bool) : (shiftInHigh v c).getLsbD 7 = c :=
  getLsbD_shiftInHigh v c (by decide)

theorem shiftInHigh_shiftInLow (v : Byte) (c : Bool) : shiftInHigh (shiftInLow v c) (v.getLsbD 7) = v := by
  refine BitVec.eq_of_getLsbD_eq fun k hk => ?_
  rw [getLsbD_shiftInHigh _ _ hk]
  split
  case isTrue h => rw [h]
  case isFalse h => rw [getLsbD_shiftInLow v c (by omega), if_neg (by omega), Nat.add_sub_cancel]

theorem shiftInLow_shiftInHigh (v : Byte) (c : Bool) : shiftInLow (shiftInHigh v c) (v.getLsbD 0) = v := by
  refine BitVec.eq_of_getLsbD_eq fun k hk => ?_
  rw [getLsbD_shiftInLow _ _ hk]
  split
  case isTrue h => rw [h]
  case isFalse h => rw [getLsbD_shiftInHigh v c (by omega), if_neg (by omega), Nat.sub_add_cancel (by omega)]

/-- Settles O38: the bit that the first rotation shifts out is the one that the second shifts in, round the byte or through
Carry. -/
theorem oppositeRotationsCancel : Obligations.OppositeRotationsCancel := by
  unfold Obligations.OppositeRotationsCancel
  intro s
  have restored {a : Byte} (h : a = s.regs.a) : { s.regs with a := a } = s.regs := by rw [h]
  have restoredCarry {c : Bool} (h : c = s.flags.cy) : { s.flags with cy := c } = s.flags := by rw [h]
  refine ⟨⟨_, _, rfl, rfl, restored ?rlc_rrc⟩, ⟨_, _, rfl, rfl, restored ?rrc_rlc⟩,
    ⟨_, _, rfl, rfl, restored ?ral_rar, restoredCarry ?ral_rar_carry⟩,
    ⟨_, _, rfl, rfl, restored ?rar_ral, restoredCarry ?rar_ral_carry⟩⟩
  case rlc_rrc =>
    simp only [State.advance_regs, State.withCy_regs, State.withA_regs, getLsbD_shiftInLow_zero, shiftInHigh_shiftInLow]
  case rrc_rlc =>
    simp only [State.advance_regs, State.withCy_regs, State.withA_regs, getLsbD_shiftInHigh_seven, shiftInLow_shiftInHigh]
  case ral_rar => exact shiftInHigh_shiftInLow s.regs.a s.flags.cy
  case ral_rar_carry => exact getLsbD_shiftInLow_zero s.regs.a s.flags.cy
  case rar_ral => exact shiftInLow_shiftInHigh s.regs.a s.flags.cy
  case rar_ral_carry => exact getLsbD_shiftInHigh_seven s.regs.a s.flags.cy

end Sys2Proof.Proofs
end

section
/-! PROOFS. Stuck instructions (spec/20_memory.md R56): `exec_performs` at each form that reads, and at each that stores. -/

namespace Sys2Proof.Proofs

open Sys2Proof.Machine Sys2Proof.Claims

theorem exists_mem_two {p : Word → Prop} {a b : Word} (h : p a ∨ p b) : ∃ x ∈ [a, b], p x := by
  rcases h with h | h
  · exact ⟨a, List.mem_cons_self, h⟩
  · exact ⟨b, List.mem_cons_of_mem a List.mem_cons_self, h⟩

theorem stuckRead_of_absent {i : Instr} {s : State} (hwf : i.wellFormed = true) (hrp11 : usesPairCode11 i = false)
    (h : ∃ a ∈ readAt i s, memPresent s.cfg a = false) : StuckRead (exec i s) :=
  (exec_performs hwf fun h11 => nomatch hrp11.symm.trans h11).stuckRead h

/-- The form of `stuckRead_of_absent` for one address. -/
theorem stuckRead_of_absent_one {i : Instr} {s : State} {a : Word} (hwf : i.wellFormed = true)
    (hrp11 : usesPairCode11 i = false) (hreads : readAt i s = [a]) (h : memPresent s.cfg a = false) :
    StuckRead (exec i s) :=
  stuckRead_of_absent hwf hrp11 ⟨a, by rw [hreads]; exact List.mem_cons_self, h⟩

/-- Settles O59: each form reads the addresses that `readAt` lists for it. -/
theorem readsOfAbsentMemoryAreStuck : Obligations.ReadsOfAbsentMemoryAreStuck := by
  unfold Obligations.ReadsOfAbsentMemoryAreStuck
  intro s
  refine ⟨fun hM => ⟨fun dst hdst => ?mov, ?accumulator⟩, fun x h => ?ldax, fun addr h => ?lda, fun addr h => ?lhld,
    fun h => ⟨fun rp => ?pop, ?popPsw, ?xthl⟩⟩
  case mov =>
    have hwf : (Instr.mov dst .m).wellFormed = true := by simp [Instr.wellFormed, hdst]
    exact stuckRead_of_absent_one hwf rfl rfl hM
  case accumulator =>
    have stuck {i : Instr} (hwf : i.wellFormed = true) (hrp11 : usesPairCode11 i = false)
        (hreads : readAt i s = [pairValue s .hl]) := stuckRead_of_absent_one hwf hrp11 hreads hM
    exact ⟨stuck rfl rfl rfl, stuck rfl rfl rfl, stuck rfl rfl rfl, stuck rfl rfl rfl, stuck rfl rfl rfl, stuck rfl rfl rfl,
      stuck rfl rfl rfl, stuck rfl rfl rfl⟩
  case ldax => exact stuckRead_of_absent_one rfl rfl rfl h
  case lda => exact stuckRead_of_absent_one rfl rfl rfl h
  case lhld => exact stuckRead_of_absent rfl rfl (exists_mem_two h)
  case pop => exact stuckRead_of_absent rfl rfl (exists_mem_two h)
  case popPsw => exact stuckRead_of_absent rfl rfl (exists_mem_two h)
  case xthl => exact stuckRead_of_absent rfl rfl (exists_mem_two h)

theorem stuckWrite_of_unwritable {i : Instr} {s : State} (hwf : i.wellFormed = true) (hrp11 : usesPairCode11 i = false)
    (hreads : ∀ a ∈ readAt i s, memPresent s.cfg a = true) (h : ∃ a ∈ storedAt i s, memWritable s.cfg a = false) :
    StuckWrite (exec i s) :=
  (exec_performs hwf fun h11 => nomatch hrp11.symm.trans h11).stuckWrite hreads h

/-- The form of `stuckWrite_of_unwritable` for one address and no read. -/
theorem stuckWrite_of_unwritable_one {i : Instr} {s : State} {a : Word} (hwf : i.wellFormed = true)
    (hrp11 : usesPairCode11 i = false) (hreads : readAt i s = []) (hstores : storedAt i s = [a])
    (h : memWritable s.cfg a = false) : StuckWrite (exec i s) :=
  stuckWrite_of_unwritable hwf hrp11 (by rw [hreads]; nofun) ⟨a, by rw [hstores]; exact List.mem_cons_self, h⟩

/-- Settles O60: each form stores at the addresses of `storedAt`; XTHL alone reads before it stores. -/
theorem writesToUnwritableMemoryAreStuck : Obligations.WritesToUnwritableMemoryAreStuck := by
  unfold Obligations.WritesToUnwritableMemoryAreStuck
  intro s
  refine ⟨fun hM => ⟨fun src hsrc => ?mov, fun d => ?mvi⟩, fun x h => ?stax, fun addr h => ?sta, fun addr h => ?shld,
    fun h => ⟨fun rp => ?push, ?pushPsw⟩, fun hp0 hp1 h => ?xthl⟩
  case mov =>
    have hwf : (Instr.mov .m src).wellFormed = true := by simp [Instr.wellFormed, hsrc]
    exact stuckWrite_of_unwritable_one hwf rfl (operandAt_of_ne_m hsrc s) rfl hM
  case mvi => exact stuckWrite_of_unwritable_one rfl rfl rfl rfl hM
  case stax => exact stuckWrite_of_unwritable_one rfl rfl rfl rfl h
  case sta => exact stuckWrite_of_unwritable_one rfl rfl rfl rfl h
  case shld => exact stuckWrite_of_unwritable rfl rfl nofun (exists_mem_two h)
  case push => exact stuckWrite_of_unwritable rfl rfl nofun (exists_mem_two h)
  case pushPsw => exact stuckWrite_of_unwritable rfl rfl nofun (exists_mem_two h)
  case xthl => exact stuckWrite_of_unwritable rfl rfl (forall_mem_two hp0 hp1) (exists_mem_two h)

end Sys2Proof.Proofs
end
